-- ==== Sys2Proof/Word.lean ====
section
/-! DEFINITION. The machine word: 16 bits, the width of an instruction word, of a memory cell and of a
register (00_scope.md rules R5 and R6). Bit 0 is the least significant bit. -/

namespace Sys2Proof

/-- A 16-bit word: an instruction word, a memory cell or a register value (R5 `WORD`). -/
abbrev Word := BitVec 16

end Sys2Proof
end

