-- ==== Sys2Proof/Syntax.lean ====
section
/-! DEFINITION. The instruction set's syntax (30_encoding.md rules R50 to R61): the sixteen instructions,
their opcodes and operand forms, the decoder's fields and control signals, and the assembler's
diagnostics (rules R65 and R74). -/

namespace Sys2Proof

/-- A register field of the instruction word: 4 bits, of which "only values 0–7 valid" (R51). -/
abbrev RegField := BitVec 4

/-- The 8-bit immediate/address field, bits 7:0 (R51, R56). -/
abbrev Imm := BitVec 8

/-- The sixteen instructions (R55), one constructor per row of the opcode table, each with exactly the
fields its form uses (R54) as the word holds them. Register operands stand in the order regA, regB. -/
inductive Instr where
  | load  (rd : RegField) (addr : Imm)
  | store (rs : RegField) (addr : Imm)
  | add   (rd rs : RegField)
  | sub   (rd rs : RegField)
  | and   (rd rs : RegField)
  | or    (rd rs : RegField)
  | xor   (rd rs : RegField)
  | li    (rd : RegField) (imm : Imm)
  | jmp   (addr : Imm)
  | jz    (rs : RegField) (addr : Imm)
  | jnz   (rs : RegField) (addr : Imm)
  | mov   (rd rs : RegField)
  | inc   (rd : RegField)
  | dec   (rd : RegField)
  | out   (rs : RegField)
  | hlt
  deriving DecidableEq, Repr

/-- The sixteen values of the 4-bit opcode field (R55). -/
inductive Opcode where
  | load | store | add | sub | and | or | xor | li
  | jmp | jz | jnz | mov | inc | dec | out | hlt
  deriving DecidableEq, Repr

/-- The five operand forms (R54). -/
inductive Form where
  | RI | RR | R | I | N
  deriving DecidableEq, Repr

/-- The four fields that the decoder extracts from every word (R51, R53). `regB` is the high nibble of
`imm` (R52). -/
structure Fields where
  opcode : BitVec 4
  regA   : RegField
  regB   : RegField
  imm    : Imm
  deriving DecidableEq, Repr

/-- The ALU function column of the control-signal table (R61). -/
inductive AluFn where
  | none | passMem | add | sub | and | or | xor | zextImm | compareZero | passB | inc | dec
  deriving DecidableEq, Repr

/-- The `pc_we` column of the control-signal table (R61): when the incremented pc is overwritten. -/
inductive PcWrite where
  | never | always | ifZero | ifNonzero
  deriving DecidableEq, Repr

/-- One row of the control-signal table (R61). -/
structure Signals where
  useA   : Bool
  useB   : Bool
  useImm : Bool
  regWe  : Bool
  memRd  : Bool
  memWe  : Bool
  pcWe   : PcWrite
  outEn  : Bool
  halt   : Bool
  alu    : AluFn
  deriving DecidableEq, Repr

/-- Why the decoder rejects a word: a register field its form uses holds 8 to 15 (R57). There is no
other reason (R62). -/
inductive DecodeError where
  | invalidRegister (w : Word)
  deriving DecidableEq, Repr

/-- The causes of an assembler diagnostic: the source's four and this spec's (R74, R79). -/
inductive DiagnosticCause where
  /-- the first token is none of the sixteen mnemonics (R69) -/
  | unknownMnemonic
  /-- too few or too many operand tokens (R72) -/
  | operandCount
  /-- a register token that is not `R` and digits with value 0 to 7 (R70) -/
  | invalidRegister
  /-- a value token that is neither a label nor a number (R71, R78) -/
  | unresolvableValue
  /-- a value outside 0..255 (R71) -/
  | valueOutOfRange
  /-- a label declared a second time (R80) -/
  | duplicateLabel
  /-- a label name that is empty or holds white space or a comma (R79) -/
  | invalidLabelName
  deriving DecidableEq, Repr

/-- One diagnostic: the 1-based raw line number, the cause, and the raw line (R74). -/
structure Diagnostic where
  line  : Nat
  cause : DiagnosticCause
  text  : List Char
  deriving DecidableEq, Repr

/-- What one call of the assembler gives back: the words and the diagnostics, in source order (R65). -/
structure Assembly where
  words       : List Word
  diagnostics : List Diagnostic
  deriving DecidableEq, Repr

end Sys2Proof
end

