-- ==== Sys2Proof/Decode.lean ====
section
/-! DEFINITION. The instruction decoder, and after it the encoder (30_encoding.md rules R50 to R64). -/

namespace Sys2Proof

/-! ### The opcode map -/

/-- The instruction that an opcode value selects; all sixteen values are assigned (R55). -/
def Opcode.ofBits (b : BitVec 4) : Opcode :=
  match b.toNat with
  | 0 => .load
  | 1 => .store
  | 2 => .add
  | 3 => .sub
  | 4 => .and
  | 5 => .or
  | 6 => .xor
  | 7 => .li
  | 8 => .jmp
  | 9 => .jz
  | 10 => .jnz
  | 11 => .mov
  | 12 => .inc
  | 13 => .dec
  | 14 => .out
  | _ => .hlt   -- 15, the one value left

/-- The value of the opcode field (R55). -/
def Opcode.bits : Opcode → BitVec 4
  | .load => 0x0#4
  | .store => 0x1#4
  | .add => 0x2#4
  | .sub => 0x3#4
  | .and => 0x4#4
  | .or => 0x5#4
  | .xor => 0x6#4
  | .li => 0x7#4
  | .jmp => 0x8#4
  | .jz => 0x9#4
  | .jnz => 0xA#4
  | .mov => 0xB#4
  | .inc => 0xC#4
  | .dec => 0xD#4
  | .out => 0xE#4
  | .hlt => 0xF#4

/-- The operand form of each opcode (R54, R55). -/
def Opcode.form : Opcode → Form
  | .load => .RI
  | .store => .RI
  | .add => .RR
  | .sub => .RR
  | .and => .RR
  | .or => .RR
  | .xor => .RR
  | .li => .RI
  | .jmp => .I
  | .jz => .RI
  | .jnz => .RI
  | .mov => .RR
  | .inc => .R
  | .dec => .R
  | .out => .R
  | .hlt => .N

/-- The opcode of an instruction (R55). -/
def Instr.opcode : Instr → Opcode
  | .load _ _ => .load
  | .store _ _ => .store
  | .add _ _ => .add
  | .sub _ _ => .sub
  | .and _ _ => .and
  | .or _ _ => .or
  | .xor _ _ => .xor
  | .li _ _ => .li
  | .jmp _ => .jmp
  | .jz _ _ => .jz
  | .jnz _ _ => .jnz
  | .mov _ _ => .mov
  | .inc _ => .inc
  | .dec _ => .dec
  | .out _ => .out
  | .hlt => .hlt

/-- The control signals of each opcode (R61). Columns: use_a, use_b, use_imm, reg_we, mem_rd, mem_we,
pc_we, out_en, halt, ALU function. -/
def Opcode.signals : Opcode → Signals
  | .load  => ⟨true,  false, true,  true,  true,  false, .never,     false, false, .passMem⟩
  | .store => ⟨true,  false, true,  false, false, true,  .never,     false, false, .none⟩
  | .add   => ⟨true,  true,  false, true,  false, false, .never,     false, false, .add⟩
  | .sub   => ⟨true,  true,  false, true,  false, false, .never,     false, false, .sub⟩
  | .and   => ⟨true,  true,  false, true,  false, false, .never,     false, false, .and⟩
  | .or    => ⟨true,  true,  false, true,  false, false, .never,     false, false, .or⟩
  | .xor   => ⟨true,  true,  false, true,  false, false, .never,     false, false, .xor⟩
  | .li    => ⟨true,  false, true,  true,  false, false, .never,     false, false, .zextImm⟩
  | .jmp   => ⟨false, false, true,  false, false, false, .always,    false, false, .none⟩
  | .jz    => ⟨true,  false, true,  false, false, false, .ifZero,    false, false, .compareZero⟩
  | .jnz   => ⟨true,  false, true,  false, false, false, .ifNonzero, false, false, .compareZero⟩
  | .mov   => ⟨true,  true,  false, true,  false, false, .never,     false, false, .passB⟩
  | .inc   => ⟨true,  false, false, true,  false, false, .never,     false, false, .inc⟩
  | .dec   => ⟨true,  false, false, true,  false, false, .never,     false, false, .dec⟩
  | .out   => ⟨true,  false, false, false, false, false, .never,     true,  false, .none⟩
  | .hlt   => ⟨false, false, false, false, false, false, .never,     false, true,  .none⟩

/-! ### The decoder -/

/-- Field extraction (R53): bits 15:12, 11:8, 7:4 and 7:0 of every word. -/
def decodeFields (w : Word) : Fields where
  opcode := w.extractLsb' 12 4
  regA   := w.extractLsb' 8 4
  regB   := w.extractLsb' 4 4
  imm    := w.extractLsb' 0 8

/-- The register-field fault test (R57): a field that the form uses holds a value of at least 8. -/
def regFault (f : Fields) : Bool :=
  match (Opcode.ofBits f.opcode).form with
  | .RI => decide (8 ≤ f.regA.toNat)
  | .RR => decide (8 ≤ f.regA.toNat) || decide (8 ≤ f.regB.toNat)
  | .R  => decide (8 ≤ f.regA.toNat)
  | .I  => false
  | .N  => false

/-- The instruction made of an opcode and the fields its form uses; the other fields are dropped (R54,
R55, R58). -/
def Opcode.instr (op : Opcode) (a b : RegField) (imm : Imm) : Instr :=
  match op with
  | .load  => .load a imm
  | .store => .store a imm
  | .add   => .add a b
  | .sub   => .sub a b
  | .and   => .and a b
  | .or    => .or a b
  | .xor   => .xor a b
  | .li    => .li a imm
  | .jmp   => .jmp imm
  | .jz    => .jz a imm
  | .jnz   => .jnz a imm
  | .mov   => .mov a b
  | .inc   => .inc a
  | .dec   => .dec a
  | .out   => .out a
  | .hlt   => .hlt

/-- The instruction that the fields stand for, before the register-field test: total (R62). -/
def Fields.instr (f : Fields) : Instr := (Opcode.ofBits f.opcode).instr f.regA f.regB f.imm

/-- The decoder: the instruction of a word, or the rejection of a word one of whose used register fields
holds 8 to 15 (R53, R55, R57). -/
def decode (w : Word) : Except DecodeError Instr :=
  if regFault (decodeFields w) then .error (.invalidRegister w) else .ok (decodeFields w).instr

/-! ### The encoder -/

/-- The word `opcode * 4096 + regA * 256 + low` (R59), `low` being the immediate or `regB * 16`. -/
def packWord (op : Opcode) (a : RegField) (low : BitVec 8) : Word := op.bits ++ (a ++ low)

/-- The low byte of form `RR`: regB in bits 7:4, zeros below (R59). -/
def regBByte (b : RegField) : BitVec 8 := b ++ 0#4

/-- The encoder (R59): unused bits are written 0. -/
def encode (i : Instr) : Word :=
  match i with
  | .load rd addr  => packWord .load rd addr
  | .store rs addr => packWord .store rs addr
  | .add rd rs     => packWord .add rd (regBByte rs)
  | .sub rd rs     => packWord .sub rd (regBByte rs)
  | .and rd rs     => packWord .and rd (regBByte rs)
  | .or rd rs      => packWord .or rd (regBByte rs)
  | .xor rd rs     => packWord .xor rd (regBByte rs)
  | .li rd imm     => packWord .li rd imm
  | .jmp addr      => packWord .jmp 0 addr
  | .jz rs addr    => packWord .jz rs addr
  | .jnz rs addr   => packWord .jnz rs addr
  | .mov rd rs     => packWord .mov rd (regBByte rs)
  | .inc rd        => packWord .inc rd 0
  | .dec rd        => packWord .dec rd 0
  | .out rs        => packWord .out rs 0
  | .hlt           => packWord .hlt 0 0

/-- A word the encoder can produce from valid operands (R59, and the glossary of 00_scope.md): every bit
outside the used fields is 0 and every used register field is 0 to 7. -/
def isCanonical (w : Word) : Bool :=
  let f := decodeFields w
  match (Opcode.ofBits f.opcode).form with
  | .RI => decide (f.regA.toNat < 8)
  | .RR => decide (f.regA.toNat < 8) && decide (f.regB.toNat < 8) && f.imm.extractLsb' 0 4 == 0
  | .R  => decide (f.regA.toNat < 8) && f.imm == 0
  | .I  => f.regA == 0
  | .N  => f.regA == 0 && f.imm == 0

/-! ### The opcode table's numbering -/

/-- The low `nbits` bits of a number as one instruction word: one 16-bit cell, bit 0 the least
significant bit (R6, R50). -/
def tableWord (nbits w : Nat) : Word := BitVec.ofNat 16 (w % 2 ^ nbits)

/-- The instruction the decoder reads from an instruction word numbered as the opcode table numbers it;
`none` where the decoder rejects the word. -/
def decodeTableWord (nbits w : Nat) : Option Instr :=
  match decode (tableWord nbits w) with
  | .ok i => some i
  | .error _ => none

end Sys2Proof
end

