-- ==== Sys2Proof/Config.lean ====
section
/-! DEFINITION. What an implementation fixes and the values the spec leaves open (00_scope.md rule R5,
92_eei_decisions.md D7 and D8, 91_not_in_source.md N17). -/

namespace Sys2Proof.Config

/-- `MEM_SIZE` of a core built with no size given: "default 65536 cells" (R5). -/
def defaultMemSize : Nat := 65536

/-- The least `MEM_SIZE` (R5, D7): with it every 8-bit address is inside memory. -/
def minMemSize : Nat := 256

/-- What a cell that the memory list does not name reads as. DESIGN CHOICE (log 2): the spec leaves
MEM_INIT open (D8); a core with another MEM_INIT lists its nonzero cells. Unsafe where a statement is
about `State.reset` alone. -/
def unlistedCell : Word := 0

/-- FREE VALUE (log 13): the text of a diagnostic's message, which the spec does not give and forbids a
model to depend on (R74, N17). It may depend on the cause and on the raw line. -/
opaque diagnosticMessage : DiagnosticCause → List Char → String

end Sys2Proof.Config
end

