-- ==== Sys2Proof/Machine/State.lean ====
section
/-! DEFINITION. The state of the core as plain data, its faults and refusals, and its reset value
(10_state.md rules R10 to R24). -/

namespace Sys2Proof.Machine

/-- One listed memory cell: its index and its 16-bit value. The cell is the unit of addressing and no
byte exists (20_memory.md R31, R33; log 1). -/
abbrev MemCell := Nat × Word

/-- Memory as a list of cells; a cell that is not listed reads as `Config.unlistedCell` (R20, R30). -/
abbrev Memory := List MemCell

/-- The one canonical form: addresses strictly rising, and no entry equal to what an unlisted cell reads
as, so that equal memories are equal lists. -/
abbrev Memory.wf (m : Memory) : Prop :=
  m.Pairwise (fun c d => c.1 < d.1) ∧ ∀ c ∈ m, c.2 ≠ Config.unlistedCell

/-- A register index, 0 to 7 (R10). -/
abbrev Reg := Fin 8

/-- The whole state of the core (10_state.md): `x[0..7]`, `pc`, `halted`, `cycles`, memory, and the
output log, which R19 lets a model keep as a list; `memSize` is the construction parameter `MEM_SIZE`
(R5), carried along unchanged (log 3). -/
structure State where
  /-- `x[0]` to `x[7]` (R10); `x[0]` is an ordinary cell that each cycle forces to zero (R11) -/
  regs : Vector Word 8
  /-- the program counter, a natural number that never wraps (R13) -/
  pc : Nat
  /-- the halted flag (R15) -/
  halted : Bool
  /-- the cycle counter, unbounded (R16) -/
  cycles : Nat
  /-- memory (R20), in the canonical form of `Memory.wf` -/
  mem : Memory
  /-- `MEM_SIZE`, the number of memory cells (R5); no operation of a built core changes it -/
  memSize : Nat
  /-- the output log, oldest value first (R19) -/
  out : List Word
  deriving DecidableEq, Repr

/-- Why a step has no successor state. -/
inductive Fault where
  /-- `InvalidRegister(pc, w)` (30_encoding.md R57, 60_exceptions.md R171): the word `w` fetched from
  cell `pc` uses a register field that holds 8 to 15. Raised by the fetch, and by every meaning of an
  instruction with a register field. Safe: the source calls the behaviour undefined and the spec makes
  it this fault. -/
  | invalidRegister (pc : Nat) (w : Word)
  /-- An access to a cell at or beyond `MEM_SIZE`, which the spec says does not exist (20_memory.md R43;
  log 4). Raised by fetch, LOAD and STORE; it cannot arise where `MEM_SIZE` is at least 256, as R5
  requires. Safe. -/
  | addressOutsideMemory (addr : Nat)
  deriving DecidableEq, Repr

/-- Why an operation is turned away with no state change. No step of the core refuses: every one of these
but the first is raised by a host operation. -/
inductive Refusal where
  /-- an instruction the model gives no meaning: none is left, so nothing raises it. Safe. -/
  | notModelled (mnemonic : String)
  /-- `construct` with fewer than 256 cells (00_scope.md R5, U5). Safe. -/
  | memoryTooSmall (memSize : Nat)
  /-- `loadProgram` beyond the end of memory (20_memory.md R44, U2). Safe. -/
  | loadOverrun (base len : Nat)
  /-- `peek` or `poke` of a cell outside memory (20_memory.md R45, U3). Safe. -/
  | hostAddressOutsideMemory (addr : Nat)
  /-- `poke` of a value outside 0..65535 (20_memory.md R45, U3). Safe. -/
  | hostValueOutOfRange (v : Int)
  /-- `peekReg` of a register index above 7 (60_exceptions.md R173, U3). Safe. -/
  | hostRegisterOutOfRange (index : Nat)
  /-- `hostRun` with a negative budget (U10). Safe. -/
  | negativeBudget (maxCycles : Int)
  /-- `boot` of a text that assembles with diagnostics (70_reset_and_hazards.md R192). Safe. -/
  | assemblyDiagnostics (count : Nat)
  deriving DecidableEq, Repr

/-- What one step or one instruction answers. -/
abbrev Result := Host.Outcome State Fault Refusal

/-- The machine right after construction and reset (R24): registers, `pc`, `halted` and `cycles` zero, the
output log empty, the default number of cells. Memory lists nothing, so every cell reads 0: DESIGN CHOICE
(log 2), since the spec leaves MEM_INIT open. -/
def State.reset : State where
  regs := Vector.replicate 8 0
  pc := 0
  halted := false
  cycles := 0
  mem := []
  memSize := Config.defaultMemSize
  out := []

end Sys2Proof.Machine
end

