-- ==== Sys2Proof/Machine/Ops.lean ====
section
/-! DEFINITION. The named operations over memory, registers and the cycle (00_scope.md rule R7's
primitives; 20_memory.md rule R43; 40_step_cycle.md rules R94 to R97), and raising a fault
(60_exceptions.md rule R171). The spec has no exception entry and no return (R176, R177): a fault changes
nothing and has no successor state. -/

namespace Sys2Proof.Machine

/-! ### Memory -/

/-- The value of cell `a`. -/
def Memory.read (m : Memory) (a : Nat) : Word :=
  match m with
  | [] => Config.unlistedCell
  | c :: rest => if c.1 = a then c.2 else Memory.read rest a

/-- One cell put in front of a list whose addresses are all greater; a value that an unlisted cell reads
as is not listed. -/
def Memory.consCell (a : Nat) (v : Word) (m : Memory) : Memory :=
  if v = Config.unlistedCell then m else (a, v) :: m

/-- Memory with cell `a` set to `v`, in canonical form again. -/
def Memory.write (m : Memory) (a : Nat) (v : Word) : Memory :=
  match m with
  | [] => Memory.consCell a v []
  | c :: rest =>
    if a < c.1 then Memory.consCell a v (c :: rest)
    else if a = c.1 then Memory.consCell a v rest
    else c :: Memory.write rest a v

/-- The memory of `n` cells whose cell `a` holds `f a`: a core's MEM_INIT as plain data (R5, D8). -/
def Memory.ofFn (n : Nat) (f : Nat → Word) : Memory :=
  (List.range n).filterMap fun a => if f a = Config.unlistedCell then none else some (a, f a)

/-- `MemRead(a, 1)`, defined only below `MEM_SIZE` (R43). -/
def State.readCell (s : State) (a : Nat) : Option Word :=
  if a < s.memSize then some (s.mem.read a) else none

/-- `MemWrite(a, 1, v)`, defined only below `MEM_SIZE` (R43). -/
def State.writeCell (s : State) (a : Nat) (v : Word) : Option State :=
  if a < s.memSize then some { s with mem := s.mem.write a v } else none

/-! ### Registers, pc, output -/

/-- `x[i]`: a plain read of the register cell (R7). -/
def State.reg (s : State) (r : Reg) : Word := s.regs[r]

/-- `x[i] <- v`: a plain write; for register 0 it lands like any other (R7, D1). -/
def State.setReg (s : State) (r : Reg) (v : Word) : State := { s with regs := s.regs.set r v }

/-- `pc <- t` (R7). -/
def State.setPc (s : State) (t : Nat) : State := { s with pc := t }

/-- `emit(v)`: append to the output log (R19, R160). -/
def State.emit (s : State) (v : Word) : State := { s with out := s.out ++ [v] }

/-! ### The cycle around an instruction's body -/

/-- Step 3: `x[0] <- 0` (R94). -/
def State.forceZero (s : State) : State := s.setReg 0 0

/-- Step 4: `pc <- pc + 1`, with no wrap (R95). -/
def State.advancePc (s : State) : State := s.setPc (s.pc + 1)

/-- Steps 3 and 4 of every executed cycle, in this order, before the body (R91). -/
def State.beginCycle (s : State) : State := s.forceZero.advancePc

/-- Step 6 of every instruction but HLT: `cycles <- cycles + 1` (R97). -/
def State.countCycle (s : State) : State := { s with cycles := s.cycles + 1 }

/-- Step 6 of HLT: `halted <- 1`, the cycle counter unchanged (R97, R161). -/
def State.setHalted (s : State) : State := { s with halted := true }

/-- A counted cycle: steps 3 and 4, the body of step 5, step 6 (R91). -/
def countedCycle (s : State) (body : State → State) : Result :=
  .next (body s.beginCycle).countCycle

/-- The HLT cycle: steps 3 and 4, an empty body, and step 6 for HLT (R91, R161). -/
def haltingCycle (s : State) : Result := .next s.beginCycle.setHalted

/-! ### Faults -/

/-- `raise InvalidRegister(pc, w)`: the step ends, nothing is changed, there is no successor state
(R57, R171, R176). -/
def raiseInvalidRegister (pc : Nat) (w : Word) : Result := .fault (.invalidRegister pc w)

/-- The fault of an access to a cell that does not exist (R43; log 4). -/
def raiseOutsideMemory (addr : Nat) : Result := .fault (.addressOutsideMemory addr)

end Sys2Proof.Machine
end

