-- ==== Sys2Proof/Machine/Operands.lean ====
section
/-! DEFINITION. Operands (30_encoding.md rules R54, R56 and R57): a register field as a register index, the
8-bit immediate as data, as a data address and as a jump target; and the ALU functions of rule R61. -/

namespace Sys2Proof.Machine

/-! ### Register operands -/

/-- The register a field names; `none` for 8 to 15, which name no register and are neither clamped nor
aliased (R57, U1). -/
def Reg.ofField (f : RegField) : Option Reg := if h : f.toNat < 8 then some ⟨f.toNat, h⟩ else none

/-- The field that names a register. -/
def Reg.field (r : Reg) : RegField := BitVec.ofNat 4 r.val

/-- The register operand `f` of instruction `i`: go on with the register, or raise `InvalidRegister` with
the instruction's address and word before anything changes (R57; log 7). -/
def withReg (i : Instr) (f : RegField) (s : State) (k : Reg → Result) : Result :=
  match Reg.ofField f with
  | some r => k r
  | none => raiseInvalidRegister s.pc (encode i)

/-- Both register operands of form `RR`, regA first; one fault whichever is invalid (R57, R175). -/
def withRegs (i : Instr) (fa fb : RegField) (s : State) (k : Reg → Reg → Result) : Result :=
  withReg i fa s fun a => withReg i fb s fun b => k a b

/-! ### Immediate operands -/

/-- `zext_16(imm)`: the immediate as data (R56, R140). -/
def immData (imm : Imm) : Word := imm.setWidth 16

/-- The immediate as an absolute cell index, for LOAD and STORE (R56, R112). -/
def immAddress (imm : Imm) : Nat := imm.toNat

/-- The immediate as an absolute jump target (R56, R150). -/
def immTarget (imm : Imm) : Nat := imm.toNat

/-! ### ALU functions -/

/-- `(a + b) mod 65536` (R120, R127). -/
def aluAdd (a b : Word) : Word := a + b
/-- `(a - b) mod 65536` (R121, R127). -/
def aluSub (a b : Word) : Word := a - b
/-- `a & b` (R122). -/
def aluAnd (a b : Word) : Word := a &&& b
/-- `a | b` (R123). -/
def aluOr (a b : Word) : Word := a ||| b
/-- `a ^ b` (R124). -/
def aluXor (a b : Word) : Word := a ^^^ b
/-- Pass the second operand (MOV, R141). -/
def aluPassB (_a b : Word) : Word := b
/-- `(a + 1) mod 65536` (R125). -/
def aluInc (a : Word) : Word := a + 1
/-- `(a - 1) mod 65536` (R126). -/
def aluDec (a : Word) : Word := a - 1

/-! ### The register forms -/

/-- Form `RR` with a result: `x[regA] <- f x[regA] x[regB]`, both read after the forced zero and before the
write (R99, R120 to R124, R141). -/
def aluRR (i : Instr) (f : Word → Word → Word) (rd rs : RegField) (s : State) : Result :=
  withRegs i rd rs s fun d t =>
    countedCycle s fun u => u.setReg d (f (u.reg d) (u.reg t))

/-- Form `R` with a result: `x[regA] <- f x[regA]` (R125, R126). -/
def aluR (i : Instr) (f : Word → Word) (rd : RegField) (s : State) : Result :=
  withReg i rd s fun d => countedCycle s fun u => u.setReg d (f (u.reg d))

end Sys2Proof.Machine
end

