-- ==== Sys2Proof/Machine/ArithLogic.lean ====
section
/-! DEFINITION. ADD, SUB, AND, OR, XOR, INC and DEC (42_arith_logic.md rules R120 to R127). -/

namespace Sys2Proof.Machine

/-- ADD Rd, Rs: `x[regA] <- (x[regA] + x[regB]) mod 65536` (R120). -/
def execAdd (rd rs : RegField) (s : State) : Result := aluRR (.add rd rs) aluAdd rd rs s

/-- SUB Rd, Rs: `x[regA] <- (x[regA] - x[regB]) mod 65536` (R121). -/
def execSub (rd rs : RegField) (s : State) : Result := aluRR (.sub rd rs) aluSub rd rs s

/-- AND Rd, Rs: `x[regA] <- x[regA] & x[regB]` (R122). -/
def execAnd (rd rs : RegField) (s : State) : Result := aluRR (.and rd rs) aluAnd rd rs s

/-- OR Rd, Rs: `x[regA] <- x[regA] | x[regB]` (R123). -/
def execOr (rd rs : RegField) (s : State) : Result := aluRR (.or rd rs) aluOr rd rs s

/-- XOR Rd, Rs: `x[regA] <- x[regA] ^ x[regB]` (R124). -/
def execXor (rd rs : RegField) (s : State) : Result := aluRR (.xor rd rs) aluXor rd rs s

/-- INC Rd: `x[regA] <- (x[regA] + 1) mod 65536` (R125). -/
def execInc (rd : RegField) (s : State) : Result := aluR (.inc rd) aluInc rd s

/-- DEC Rd: `x[regA] <- (x[regA] - 1) mod 65536` (R126). -/
def execDec (rd : RegField) (s : State) : Result := aluR (.dec rd) aluDec rd s

end Sys2Proof.Machine
end

