-- ==== Sys2Proof/Machine/Flags.lean ====
section
/-! DEFINITION. Conditions. The core has no flag of any kind (10_state.md rule R14): the conditional jumps
test a general register against zero (44_control.md rules R151 and R152), and no instruction computes a
carry, an overflow, a sign or a zero flag. -/

namespace Sys2Proof.Machine

/-- JZ's condition: the register's current value is exactly zero (R151). -/
def testZero (v : Word) : Bool := v == 0

/-- JNZ's condition: any of the 65535 nonzero values (R152). -/
def testNonzero (v : Word) : Bool := v != 0

/-- The conditional jump of form `RI`: the register is tested after the forced zero, and a taken jump
overwrites the incremented `pc` (R95, R151, R152). -/
def jumpWhen (i : Instr) (test : Word → Bool) (rs : RegField) (addr : Imm) (s : State) : Result :=
  withReg i rs s fun r =>
    countedCycle s fun u => if test (u.reg r) then u.setPc (immTarget addr) else u

end Sys2Proof.Machine
end

