-- ==== Sys2Proof/Machine/Control.lean ====
section
/-! DEFINITION. JMP, JZ and JNZ (44_control.md rules R150 to R153). -/

namespace Sys2Proof.Machine

/-- JMP addr: `pc <- imm`; no register field is used or checked (R150). -/
def execJmp (addr : Imm) (s : State) : Result := countedCycle s fun u => u.setPc (immTarget addr)

/-- JZ Rs, addr: `if x[regA] == 0: pc <- imm` (R151). -/
def execJz (rs : RegField) (addr : Imm) (s : State) : Result :=
  jumpWhen (.jz rs addr) testZero rs addr s

/-- JNZ Rs, addr: `if x[regA] != 0: pc <- imm` (R152). -/
def execJnz (rs : RegField) (addr : Imm) (s : State) : Result :=
  jumpWhen (.jnz rs addr) testNonzero rs addr s

end Sys2Proof.Machine
end

