-- ==== Sys2Proof/Machine/LoadStore.lean ====
section
/-! DEFINITION. LOAD and STORE (41_load_store.md rules R110 to R112). -/

namespace Sys2Proof.Machine

/-- LOAD Rd, addr: `x[regA] <- MemRead(imm, 1)` (R110). -/
def execLoad (rd : RegField) (addr : Imm) (s : State) : Result :=
  withReg (.load rd addr) rd s fun d =>
    match s.beginCycle.readCell (immAddress addr) with
    | some v => countedCycle s fun u => u.setReg d v
    | none => raiseOutsideMemory (immAddress addr)

/-- STORE Rs, addr: `MemWrite(imm, 1, x[regA])`, the register read after the forced zero (R111). -/
def execStore (rs : RegField) (addr : Imm) (s : State) : Result :=
  withReg (.store rs addr) rs s fun r =>
    match s.beginCycle.writeCell (immAddress addr) (s.beginCycle.reg r) with
    | some u => .next u.countCycle
    | none => raiseOutsideMemory (immAddress addr)

end Sys2Proof.Machine
end

