-- ==== Sys2Proof/Machine/Move.lean ====
section
/-! DEFINITION. LI and MOV (43_move.md rules R140 and R141). -/

namespace Sys2Proof.Machine

/-- LI Rd, imm: `x[regA] <- zext_16(imm)` (R140). -/
def execLi (rd : RegField) (imm : Imm) (s : State) : Result :=
  withReg (.li rd imm) rd s fun d => countedCycle s fun u => u.setReg d (immData imm)

/-- MOV Rd, Rs: `x[regA] <- x[regB]` (R141). -/
def execMov (rd rs : RegField) (s : State) : Result := aluRR (.mov rd rs) aluPassB rd rs s

end Sys2Proof.Machine
end

