-- ==== Sys2Proof/Machine/System.lean ====
section
/-! DEFINITION. OUT and HLT (45_system.md rules R160 and R161). -/

namespace Sys2Proof.Machine

/-- OUT Rs: `emit(x[regA])`, the register read after the forced zero (R160). -/
def execOut (rs : RegField) (s : State) : Result :=
  withReg (.out rs) rs s fun r => countedCycle s fun u => u.emit (u.reg r)

/-- HLT: nothing in step 5, `halted <- 1` in step 6, not counted (R161). -/
def execHlt (s : State) : Result := haltingCycle s

end Sys2Proof.Machine
end

