-- ==== Sys2Proof/Machine/Dispatch.lean ====
section
/-! DEFINITION. One arm per instruction (40_step_cycle.md rule R96). `exec i s` is steps 3 to 6 of rule R91 for
instruction `i` from state `s`: the forced zero, the pc's advance, the body and the completion. -/

namespace Sys2Proof.Machine

def exec (i : Instr) (s : State) : Host.Outcome State Fault Refusal :=
  match i with
  | .load rd addr => Sys2Proof.Machine.execLoad rd addr s
  | .store rs addr => Sys2Proof.Machine.execStore rs addr s
  | .add rd rs => Sys2Proof.Machine.execAdd rd rs s
  | .sub rd rs => Sys2Proof.Machine.execSub rd rs s
  | .and rd rs => Sys2Proof.Machine.execAnd rd rs s
  | .or rd rs => Sys2Proof.Machine.execOr rd rs s
  | .xor rd rs => Sys2Proof.Machine.execXor rd rs s
  | .li rd imm => Sys2Proof.Machine.execLi rd imm s
  | .jmp addr => Sys2Proof.Machine.execJmp addr s
  | .jz rs addr => Sys2Proof.Machine.execJz rs addr s
  | .jnz rs addr => Sys2Proof.Machine.execJnz rs addr s
  | .mov rd rs => Sys2Proof.Machine.execMov rd rs s
  | .inc rd => Sys2Proof.Machine.execInc rd s
  | .dec rd => Sys2Proof.Machine.execDec rd s
  | .out rs => Sys2Proof.Machine.execOut rs s
  | .hlt => Sys2Proof.Machine.execHlt s

end Sys2Proof.Machine
end

