-- ==== Sys2Proof/Machine/Sequencer.lean ====
section
/-! DEFINITION. The guard, the fetch and the decode of one step (40_step_cycle.md rules R90 to R93), and
the placing of a word where the next fetch reads it. -/

namespace Sys2Proof.Machine

/-- Step 1's guard: the core can execute when it is not halted and `pc` is inside memory (R92). -/
def State.canStep (s : State) : Bool := !s.halted && decide (s.pc < s.memSize)

/-- The `Stop` outcome: nothing at all is changed (R92, D22; log 6). -/
def stopStep (s : State) : Result := .next s

/-- Step 2, fetch: `w <- MemRead(pc, 1)` (R93). -/
def State.fetchWord (s : State) : Option Word := s.readCell s.pc

/-- Step 2, fetch and decode: the instruction, or the fault that ends the step before anything changes
(R57, R93, R171). -/
def fetchDecode (s : State) : Except Fault Instr :=
  match s.fetchWord with
  | none => .error (.addressOutsideMemory s.pc)
  | some w =>
    match decode w with
    | .ok i => .ok i
    | .error (.invalidRegister v) => .error (.invalidRegister s.pc v)

/-- The state with `w` in the cell the next step fetches. A halted core is made running and a `pc` off the
end is put at cell 0, because otherwise no step fetches (log 9); nothing else changes. -/
def State.placeFetchWord (s : State) (w : Word) : State :=
  let pc := if s.pc < s.memSize then s.pc else 0
  { s with halted := false, pc := pc, mem := s.mem.write pc w }

end Sys2Proof.Machine
end

