-- ==== Sys2Proof/Machine/Step.lean ====
section
/-! DEFINITION. One step of the core (40_step_cycle.md rule R91). -/

namespace Sys2Proof.Machine

/-- `step()` (R91): the guard, the fetch and decode, then the instruction's cycle. A `Stop` answers the same
state; a fault has no successor state. -/
def step (s : State) : Host.Outcome State Fault Refusal :=
  if s.canStep then
    match fetchDecode s with
    | .ok i => exec i s
    | .error r => .fault r
  else stopStep s

/-- `s` with an instruction word, numbered as the opcode table numbers it, where the next step fetches. -/
def State.withFetchWord (s : State) (nbits w : Nat) : State := s.placeFetchWord (tableWord nbits w)

end Sys2Proof.Machine
end

