-- ==== Sys2Proof/Machine/Datapath.lean ====
section
/-! DEFINITION. The cycle as the five blocks carry it out: the data that crosses block boundaries (10_state.md
rule R26), steered by the control signals of the opcode alone (30_encoding.md rule R61). It is a second
description of steps 3 to 6 of rule R91, beside the per-instruction meanings that the step calls. -/

namespace Sys2Proof.Machine

/-- The register file's output for a field: `x[field]` where the form uses it. An input that is not used is
not read; 0 stands there and nothing depends on it (log 15). -/
def State.regOutput (s : State) (use : Bool) (f : RegField) : Word :=
  match use, Reg.ofField f with
  | true, some r => s.reg r
  | _, _ => 0

/-- The ALU column of R61: from `a = x[regA]`, `b = x[regB]`, the immediate and the memory data. -/
def aluResult (fn : AluFn) (a b : Word) (imm : Imm) (m : Word) : Word :=
  match fn with
  | .none => 0
  | .passMem => m
  | .add => aluAdd a b
  | .sub => aluSub a b
  | .and => aluAnd a b
  | .or => aluOr a b
  | .xor => aluXor a b
  | .zextImm => immData imm
  | .compareZero => 0
  | .passB => aluPassB a b
  | .inc => aluInc a
  | .dec => aluDec a

/-- Whether the incremented `pc` is overwritten (R61 `pc_we`). -/
def pcOverwritten (p : PcWrite) (a : Word) : Bool :=
  match p with
  | .never => false
  | .always => true
  | .ifZero => testZero a
  | .ifNonzero => testNonzero a

/-- The decoder's fault output: `(use_a and regA >= 8) or (use_b and regB >= 8)` (R61). -/
def signalFault (f : Fields) : Bool :=
  let c := (Opcode.ofBits f.opcode).signals
  (c.useA && decide (8 ≤ f.regA.toNat)) || (c.useB && decide (8 ≤ f.regB.toNat))

/-- The memory controller's read data: cell `imm` under `mem_rd` (R26, R61). -/
def memoryData (c : Signals) (imm : Imm) (s : State) : Option Word :=
  if c.memRd then s.readCell (immAddress imm) else some 0

/-- The register file under `reg_we` (R26, R61). -/
def writeBack (c : Signals) (f : RegField) (v : Word) (s : State) : State :=
  match c.regWe, Reg.ofField f with
  | true, some d => s.setReg d v
  | _, _ => s

/-- The memory controller's write of `a` to cell `imm` under `mem_we` (R26, R61). -/
def storeBack (c : Signals) (imm : Imm) (a : Word) (s : State) : Option State :=
  if c.memWe then s.writeCell (immAddress imm) a else some s

/-- The sequencer's part: the jump under `pc_we`, the output under `out_en`, and step 6 under `halt`. -/
def sequencerPart (c : Signals) (imm : Imm) (a : Word) (s : State) : State :=
  let s1 := if pcOverwritten c.pcWe a then s.setPc (immTarget imm) else s
  let s2 := if c.outEn then s1.emit a else s1
  if c.halt then s2.setHalted else s2.countCycle

/-- Steps 2 (the fault test) to 6 for the fetched word `w`, steered by the control signals. -/
def datapathCycle (w : Word) (s : State) : Result :=
  let f := decodeFields w
  let c := (Opcode.ofBits f.opcode).signals
  if signalFault f then raiseInvalidRegister s.pc w
  else
    let u := s.beginCycle
    let a := u.regOutput c.useA f.regA
    let b := u.regOutput c.useB f.regB
    match memoryData c f.imm u with
    | none => raiseOutsideMemory (immAddress f.imm)
    | some m =>
      match storeBack c f.imm a (writeBack c f.regA (aluResult c.alu a b f.imm m) u) with
      | none => raiseOutsideMemory (immAddress f.imm)
      | some t => .next (sequencerPart c f.imm a t)

end Sys2Proof.Machine
end

