-- ==== Sys2Proof/Machine/Assembler.lean ====
section
/-! DEFINITION. The assembler (30_encoding.md rules R65 to R82): text to words and diagnostics, in two passes
over the same normalized lines. A text is a list of characters. -/

namespace Sys2Proof.Assembler

/-! ### Characters and tokens -/

/-- White space inside a line: space, tab, carriage return, form feed, vertical tab. DESIGN CHOICE (log
10): the spec does not list the characters. -/
def isBlank (c : Char) : Bool :=
  c == ' ' || c == '\t' || c == '\r' || c == Char.ofNat 12 || c == Char.ofNat 11

/-- The raw lines of a text, cut at line feeds (R66; log 10). -/
def splitLines : List Char → List (List Char)
  | [] => [[]]
  | c :: rest =>
    if c == '\n' then [] :: splitLines rest
    else
      match splitLines rest with
      | [] => [[c]]
      | line :: lines => (c :: line) :: lines

/-- Drop leading and trailing white space (R67). -/
def trim (cs : List Char) : List Char :=
  ((cs.dropWhile isBlank).reverse.dropWhile isBlank).reverse

/-- The text before the first `;` or `#` (R67 item 1). -/
def stripComment (cs : List Char) : List Char := cs.takeWhile fun c => c != ';' && c != '#'

/-- Cut a text into its maximal runs of characters that are not white space (R69). -/
def tokensFrom : List Char → List Char → List (List Char)
  | [], cur => if cur.isEmpty then [] else [cur.reverse]
  | c :: rest, cur =>
    if isBlank c then (if cur.isEmpty then tokensFrom rest [] else cur.reverse :: tokensFrom rest [])
    else tokensFrom rest (c :: cur)

/-- The tokens of an instruction body: every comma is replaced by a space first (R69, D10). -/
def tokens (body : List Char) : List (List Char) :=
  tokensFrom (body.map fun c => if c == ',' then ' ' else c) []

/-! ### Normalized lines -/

/-- A raw line after normalization (R67): its 1-based number, the raw text, the label before the first
colon if there is one, and the instruction body, empty if there is none. -/
structure Line where
  number : Nat
  raw    : List Char
  label  : Option (List Char)
  body   : List Char
  deriving DecidableEq, Repr

/-- Normalization of one raw line (R67): comment, white space, label. -/
def normalize (number : Nat) (raw : List Char) : Line :=
  let text := trim (stripComment raw)
  if text.contains ':' then
    { number := number, raw := raw, label := some (trim (text.takeWhile (· != ':'))),
      body := trim ((text.dropWhile (· != ':')).drop 1) }
  else { number := number, raw := raw, label := none, body := text }

/-- Number the raw lines from `n` on and normalize each (R67). -/
def normalizeFrom : Nat → List (List Char) → List Line
  | _, [] => []
  | n, raw :: rest => normalize n raw :: normalizeFrom (n + 1) rest

/-- The normalized lines of a text, numbered from 1 (R67). -/
def linesOf (source : List Char) : List Line := normalizeFrom 1 (splitLines source)

/-! ### Pass 1: labels -/

/-- Label names with their addresses, in the order of declaration (R68). -/
abbrev SymTab := List (List Char × Nat)

/-- The address bound to a name, compared exactly (R71, R79). -/
def SymTab.find (t : SymTab) (name : List Char) : Option Nat :=
  match t with
  | [] => none
  | (n, a) :: rest => if n = name then some a else SymTab.find rest name

/-- White space that no lexical rule names, so that U12 refuses it ("exotic whitespace"): U+0085, U+00A0,
U+1680, U+2000 to U+200A, U+2028, U+2029, U+202F, U+205F and U+3000. PRESUMED (log 18): the spec does not
list the characters; these are the Unicode white-space characters besides `isBlank`'s and the line feed. -/
def isExoticSpace (c : Char) : Bool :=
  let n := c.toNat
  n == 0x85 || n == 0xA0 || n == 0x1680 || (decide (0x2000 ≤ n) && decide (n ≤ 0x200A)) || n == 0x2028 ||
    n == 0x2029 || n == 0x202F || n == 0x205F || n == 0x3000

/-- A name is not empty and holds no white space and no comma (R79). White space here is `isBlank` (log 10)
and the exotic white space that U12 refuses (log 18). -/
def validLabel (name : List Char) : Bool :=
  !name.isEmpty && name.all fun c => !isBlank c && !isExoticSpace c && c != ','

/-- What is wrong with a line's label, given the labels declared before it (R79, R80). -/
def labelCause (t : SymTab) (l : Line) : Option DiagnosticCause :=
  match l.label with
  | none => none
  | some name =>
    if !validLabel name then some .invalidLabelName
    else if (t.find name).isSome then some .duplicateLabel
    else none

/-- Bind the line's label to the next address, unless the label draws a diagnostic (R68, R79, R80). -/
def bindLabel (t : SymTab) (addr : Nat) (l : Line) : SymTab :=
  match l.label with
  | none => t
  | some name => if (labelCause t l).isNone then t ++ [(name, addr)] else t

/-- The address after a line: every non-empty body takes one, whether or not it encodes (R68, R75, D16). -/
def nextAddress (addr : Nat) (l : Line) : Nat := if l.body.isEmpty then addr else addr + 1

/-- Pass 1: the symbol table of the lines, from an address and a table (R68). -/
def passOne : List Line → Nat → SymTab → SymTab
  | [], _, t => t
  | l :: rest, addr, t => passOne rest (nextAddress addr l) (bindLabel t addr l)

/-- The label diagnostic of each line, found in the same walk (R79, R80). -/
def labelCauses : List Line → Nat → SymTab → List (Option DiagnosticCause)
  | [], _, _ => []
  | l :: rest, addr, t =>
    labelCause t l :: labelCauses rest (nextAddress addr l) (bindLabel t addr l)

/-! ### Pass 2: operands -/

/-- The value of a decimal digit. -/
def digitValue (c : Char) : Option Nat :=
  if '0'.toNat ≤ c.toNat ∧ c.toNat ≤ '9'.toNat then some (c.toNat - '0'.toNat) else none

/-- The value of a hexadecimal digit of either case (R78). -/
def hexDigitValue (c : Char) : Option Nat :=
  if 'a'.toNat ≤ c.toNat ∧ c.toNat ≤ 'f'.toNat then some (c.toNat - 'a'.toNat + 10)
  else if 'A'.toNat ≤ c.toNat ∧ c.toNat ≤ 'F'.toNat then some (c.toNat - 'A'.toNat + 10)
  else digitValue c

/-- Read digits in a base, most significant first, from an accumulated value. -/
def digitsFrom (base : Nat) (digit : Char → Option Nat) : List Char → Nat → Option Nat
  | [], acc => some acc
  | c :: rest, acc =>
    match digit c with
    | some d => digitsFrom base digit rest (acc * base + d)
    | none => none

/-- One or more digits in a base. -/
def parseDigits (base : Nat) (digit : Char → Option Nat) (cs : List Char) : Option Nat :=
  if cs.isEmpty then none else digitsFrom base digit cs 0

/-- A number (R71, R78): `0x` and hexadecimal digits, or decimal digits after an optional `-`. DESIGN CHOICE
(log 17): a `-` before zeros (`-0`) reads as 0, which is in range; the spec says of a leading `-` that the
number is negative or out of range and does not name this token. -/
def parseNumber (tok : List Char) : Option Int :=
  match tok with
  | '0' :: 'x' :: hex => (parseDigits 16 hexDigitValue hex).map Int.ofNat
  | '-' :: dec => (parseDigits 10 digitValue dec).map fun n => -Int.ofNat n
  | dec => (parseDigits 10 digitValue dec).map Int.ofNat

/-- A register token (R70): `R` or `r` and digits, of decimal value 0 to 7. -/
def parseRegister (tok : List Char) : Except DiagnosticCause RegField :=
  match tok with
  | c :: digits =>
    if c == 'R' || c == 'r' then
      match parseDigits 10 digitValue digits with
      | some n => if n < 8 then .ok (BitVec.ofNat 4 n) else .error .invalidRegister
      | none => .error .invalidRegister
    else .error .invalidRegister
  | [] => .error .invalidRegister

/-- A value as an immediate: 0 to 255 and nothing else (R71, D11). -/
def immediate (v : Int) : Except DiagnosticCause Imm :=
  if 0 ≤ v ∧ v ≤ 255 then .ok (BitVec.ofInt 8 v) else .error .valueOutOfRange

/-- A value token (R71): the label table first, then a number. -/
def parseValue (t : SymTab) (tok : List Char) : Except DiagnosticCause Imm :=
  match t.find tok with
  | some a => immediate (Int.ofNat a)
  | none =>
    match parseNumber tok with
    | some v => immediate v
    | none => .error .unresolvableValue

/-- The sixteen mnemonics (R55, R69). -/
def mnemonics : List (String × Opcode) :=
  [("LOAD", .load), ("STORE", .store), ("ADD", .add), ("SUB", .sub), ("AND", .and), ("OR", .or),
   ("XOR", .xor), ("LI", .li), ("JMP", .jmp), ("JZ", .jz), ("JNZ", .jnz), ("MOV", .mov),
   ("INC", .inc), ("DEC", .dec), ("OUT", .out), ("HLT", .hlt)]

/-- Uppercase of the letters a to z; other characters stand (R69; log 10). -/
def upper (c : Char) : Char :=
  if 'a'.toNat ≤ c.toNat ∧ c.toNat ≤ 'z'.toNat then Char.ofNat (c.toNat - 32) else c

/-- The opcode of a mnemonic token, of either case (R66, R69). -/
def findMnemonic (tok : List Char) : Option Opcode :=
  (mnemonics.find? fun p => p.1.toList == tok.map upper).map (·.2)

/-- The operand tokens of an opcode's form (R72): exactly as many as the form has. -/
def parseOperands (t : SymTab) (op : Opcode) (ops : List (List Char)) : Except DiagnosticCause Instr :=
  match op.form, ops with
  | .RI, [r, v] => do
    let a ← parseRegister r
    let imm ← parseValue t v
    return op.instr a 0 imm
  | .RR, [r, q] => do
    let a ← parseRegister r
    let b ← parseRegister q
    return op.instr a b 0
  | .R, [r] => do
    let a ← parseRegister r
    return op.instr a 0 0
  | .I, [v] => do
    let imm ← parseValue t v
    return op.instr 0 0 imm
  | .N, [] => return op.instr 0 0 0
  | _, _ => .error .operandCount

/-- The instruction of a non-empty body (R69 to R72). A body with no token at all (commas only) has no
known mnemonic (log 11). -/
def parseBody (t : SymTab) (body : List Char) : Except DiagnosticCause Instr :=
  match tokens body with
  | [] => .error .unknownMnemonic
  | m :: ops =>
    match findMnemonic m with
    | none => .error .unknownMnemonic
    | some op => parseOperands t op ops

/-- Pass 2 on one line: nothing for an empty body, else an instruction or the cause it has none. -/
def parseLine (t : SymTab) (l : Line) : Option (Except DiagnosticCause Instr) :=
  if l.body.isEmpty then none else some (parseBody t l.body)

/-- The word that a line emits, if it emits one (R73). -/
def lineWord (t : SymTab) (l : Line) : Option Word :=
  match parseLine t l with
  | some (.ok i) => some (encode i)
  | _ => none

/-- The diagnostics of one line: its label's, then its body's (R74; log 12). -/
def lineDiagnostics (t : SymTab) (l : Line) (labelFault : Option DiagnosticCause) : List Diagnostic :=
  let ofLabel := labelFault.toList
  let ofBody :=
    match parseLine t l with
    | some (.error c) => [c]
    | _ => []
  (ofLabel ++ ofBody).map fun c => { line := l.number, cause := c, text := l.raw }

/-- The diagnostics of the lines, in line order (R74). -/
def collectDiagnostics (t : SymTab) : List Line → List (Option DiagnosticCause) → List Diagnostic
  | l :: ls, c :: cs => lineDiagnostics t l c ++ collectDiagnostics t ls cs
  | _, _ => []

/-- The two passes over normalized lines (R68, R69, R73). -/
def assembleLines (ls : List Line) : Assembly :=
  let t := passOne ls 0 []
  { words := ls.filterMap (lineWord t), diagnostics := collectDiagnostics t ls (labelCauses ls 0 []) }

/-- `assemble(source_text)`: total, and every recoverable failure is a diagnostic (R65). -/
def assemble (source : List Char) : Assembly := assembleLines (linesOf source)

/-- A diagnostic as text, in the form `Line <n>: <message>` (R74); the message is a free value (log 13). -/
def diagnosticText (d : Diagnostic) : String :=
  "Line " ++ toString d.line ++ ": " ++ Config.diagnosticMessage d.cause d.text

end Sys2Proof.Assembler
end

