-- ==== Sys2Proof/Machine/Run.lean ====
section
/-! DEFINITION. The outcomes of a step, the run loop and the ways a run ends (00_scope.md rule R8;
40_step_cycle.md rules R90, R97, R101 and R102). -/

namespace Sys2Proof.Machine

/-- The outcomes of one step, kept apart as R8 names them, each with the state after it. -/
inductive StepOutcome where
  /-- an instruction other than HLT was executed; `step` returned true -/
  | next (t : State)
  /-- HLT was executed; `step` returned false -/
  | halt (t : State)
  /-- the core was halted or `pc` was off the end; `step` returned false and changed nothing -/
  | stop (t : State)
  /-- the step has no successor state -/
  | fault (r : Fault)
  /-- an instruction without a meaning: none is left -/
  | refused (r : Refusal)
  deriving DecidableEq, Repr

/-- `step()` with its outcome named (R8). -/
def stepOutcome (s : State) : StepOutcome :=
  if s.canStep then
    match step s with
    | .next t => if t.halted then .halt t else .next t
    | .fault r => .fault r
    | .refused r => .refused r
  else .stop s

/-- The boolean that `step() -> bool` returns: "whether execution may continue" (R8, R91); none where the
source gives no return value. -/
def stepReturns (s : State) : Option Bool :=
  match stepOutcome s with
  | .next _ => some true
  | .halt _ => some false
  | .stop _ => some false
  | .fault _ => none
  | .refused _ => none

/-- What ended a run that did not return normally. -/
inductive Abort where
  | fault (r : Fault)
  | refused (r : Refusal)
  deriving DecidableEq, Repr

/-- The result of a run: the state after it, the number of steps of this call that returned true, and
the fault that ended it, if one did (R101, D20, D21). -/
structure RunResult where
  state : State
  count : Nat
  abort : Option Abort
  deriving DecidableEq, Repr

/-- One more step that returned true in front of a run. -/
def RunResult.addStep (r : RunResult) : RunResult := { r with count := r.count + 1 }

/-- `run(max_cycles)` (R101): steps until one returns false, one faults, or the budget is used up. -/
def run : Nat → State → RunResult
  | 0, s => ⟨s, 0, none⟩
  | n + 1, s =>
    match stepOutcome s with
    | .next t => (run n t).addStep
    | .halt t => ⟨t, 0, none⟩
    | .stop t => ⟨t, 0, none⟩
    | .fault r => ⟨s, 0, some (.fault r)⟩
    | .refused r => ⟨s, 0, some (.refused r)⟩

/-- The four ways a run ends (R102). -/
inductive Ending where
  | halted | offTheEnd | budget
  | aborted (r : Abort)
  deriving DecidableEq, Repr

/-- How a run ended, read from its result by the conditions of R102. -/
def RunResult.ending (r : RunResult) : Ending :=
  match r.abort with
  | some a => .aborted a
  | none =>
    if r.state.halted then .halted
    else if r.state.memSize ≤ r.state.pc then .offTheEnd
    else .budget

end Sys2Proof.Machine
end

