-- ==== Sys2Proof/Machine/HostOps.lean ====
section
/-! DEFINITION. The host's operations between steps (10_state.md rule R25; 20_memory.md rules R44 and R45;
70_reset_and_hazards.md rules R190 to R194). Each is atomic; a violated precondition refuses the call with
no state change (D18, D19). -/

namespace Sys2Proof.Machine

/-- Construction (R191, R24): a core of `memSize` cells holding `memInit`, otherwise as at reset. Fewer than
256 cells are refused (R5, U5). -/
def construct (memSize : Nat) (memInit : Nat → Word) : Except Refusal State :=
  if Config.minMemSize ≤ memSize then
    .ok { State.reset with memSize := memSize, mem := Memory.ofFn memSize memInit }
  else .error (.memoryTooSmall memSize)

/-- A number "masked to 16 bits": reduced modulo 65536, negative numbers too (R44, U14). -/
def maskWord (v : Int) : Word := BitVec.ofInt 16 v

/-- Copy words into memory from cell `base` on (R44). -/
def Memory.load (m : Memory) (base : Nat) : List Int → Memory
  | [] => m
  | v :: rest => Memory.load (m.write base (maskWord v)) (base + 1) rest

/-- `load_program(words, base_address)`: memory only (D15); refused as a whole if it does not fit (R44, D19). -/
def loadProgram (words : List Int) (base : Nat) (s : State) : Except Refusal State :=
  if base + words.length ≤ s.memSize then .ok { s with mem := s.mem.load base words }
  else .error (.loadOverrun base words.length)

/-- A host read of a cell (R45, R193). -/
def peek (a : Nat) (s : State) : Except Refusal Word :=
  match s.readCell a with
  | some v => .ok v
  | none => .error (.hostAddressOutsideMemory a)

/-- A host write of a cell with a value in 0..65535 (R45). -/
def poke (a : Nat) (v : Int) (s : State) : Except Refusal State :=
  if 0 ≤ v ∧ v < 65536 then
    match s.writeCell a (maskWord v) with
    | some t => .ok t
    | none => .error (.hostAddressOutsideMemory a)
  else .error (.hostValueOutOfRange v)

/-- A host read of a register cell (R193, U3); register 0 shows what the last instruction left (R11). -/
def peekReg (i : Nat) (s : State) : Except Refusal Word :=
  if h : i < 8 then .ok (s.reg ⟨i, h⟩) else .error (.hostRegisterOutOfRange i)

/-- `reset()`: registers, `pc`, `halted` and `cycles` to zero, the output log emptied, memory untouched
(R190, D9). -/
def hostReset (s : State) : State :=
  { s with regs := Vector.replicate 8 0, pc := 0, halted := false, cycles := 0, out := [] }

/-- `run(max_cycles)` as the host calls it: the budget is a natural number, anything else is refused
(R101, U10). -/
def hostRun (maxCycles : Int) (s : State) : Except Refusal RunResult :=
  if 0 ≤ maxCycles then .ok (run maxCycles.toNat s) else .error (.negativeBudget maxCycles)

/-- Several pokes in a row, stopping at the first that is refused (R192 item 3). -/
def pokeAll : List (Nat × Int) → State → Except Refusal State
  | [], s => .ok s
  | p :: rest, s =>
    match poke p.1 p.2 s with
    | .ok t => pokeAll rest t
    | .error r => .error r

/-- The boot sequence (R192): assemble, and stop if there is a diagnostic; load at base 0; poke the data;
reset; run. -/
def boot (source : List Char) (data : List (Nat × Int)) (budget : Int) (s : State) :
    Except Refusal RunResult :=
  let asm := Assembler.assemble source
  if asm.diagnostics.isEmpty then
    match loadProgram (asm.words.map fun w => Int.ofNat w.toNat) 0 s with
    | .error r => .error r
    | .ok loaded =>
      match pokeAll data loaded with
      | .error r => .error r
      | .ok ready => hostRun budget (hostReset ready)
  else .error (.assemblyDiagnostics asm.diagnostics.length)

end Sys2Proof.Machine
end

