-- ==== Sys2Proof/WellFormed.lean ====
section
/-! DEFINITION. Well-formed instructions: every register field that the instruction uses names one of the
eight registers (30_encoding.md rules R51 and R57). -/

namespace Sys2Proof

/-- The register fields an instruction uses, in the order regA, regB (R54, R12). -/
def Instr.regFields : Instr → List RegField
  | .load rd _ => [rd]
  | .store rs _ => [rs]
  | .add rd rs => [rd, rs]
  | .sub rd rs => [rd, rs]
  | .and rd rs => [rd, rs]
  | .or rd rs => [rd, rs]
  | .xor rd rs => [rd, rs]
  | .li rd _ => [rd]
  | .jmp _ => []
  | .jz rs _ => [rs]
  | .jnz rs _ => [rs]
  | .mov rd rs => [rd, rs]
  | .inc rd => [rd]
  | .dec rd => [rd]
  | .out rs => [rs]
  | .hlt => []

/-- Every used register field is 0 to 7 (R57). -/
abbrev WellFormed (i : Instr) : Prop := ∀ f ∈ i.regFields, f.toNat < 8

end Sys2Proof
end

