-- ==== Sys2Proof/Safety.lean ====
section
/-! DEFINITION. The terms in which statements speak: what an instruction reads and what a step leaves alone
(40_step_cycle.md rules R91 to R100), the state invariant (10_state.md rule R23), and the states that a
host's operations reach (10_state.md rule R25). -/

namespace Sys2Proof.Machine

/-! ### What an instruction reads -/

/-- The value of a register at step 5 of a cycle that begins in `s`: register 0 reads as zero, every other
register as `s` has it (R100). -/
def State.operand (s : State) (r : Reg) : Word := if r = 0 then 0 else s.reg r

/-! ### Frames of an executed cycle from `s` to `t` -/

/-- Registers: the destination holds `v`, every other register what the cycle reads in it (so register 0,
if it is not the destination, is left zero). -/
def RegsWritten (s t : State) (d : Reg) (v : Word) : Prop :=
  t.reg d = v ∧ ∀ r, r ≠ d → t.reg r = s.operand r

/-- Registers: no destination, only the forced zero of register 0. -/
def RegsKept (s t : State) : Prop := ∀ r, t.reg r = s.operand r

/-- Memory: the same, cell by cell and as data. -/
def MemKept (s t : State) : Prop := (∀ a, t.mem.read a = s.mem.read a) ∧ t.mem = s.mem

/-- The output log is the same. -/
def OutKept (s t : State) : Prop := t.out = s.out

/-- The next instruction is the one at the following cell. -/
def PcAdvanced (s t : State) : Prop := t.pc = s.pc + 1

/-- The cycle was counted; the halted flag and the memory size are the same. -/
def Counted (s t : State) : Prop :=
  t.cycles = s.cycles + 1 ∧ t.halted = s.halted ∧ t.memSize = s.memSize

/-- The instruction ends in `InvalidRegister` at the current `pc`. -/
def FaultsInvalidRegister (i : Instr) (s : State) : Prop :=
  ∃ w, exec i s = .fault (.invalidRegister s.pc w)

/-- The whole effect of an `RR` instruction with opcode value `code` (30_encoding.md R54, R59; 42_arith_logic.md
§1): its words, the bits 3:0 of which mean nothing; for all registers and every state, exec answers a next state in which the destination holds
`result` of the two operands and everything else is as the frame says; a field of 8 to 15 faults. -/
def CompletesRR (mk : RegField → RegField → Instr) (code : Nat) (result : Word → Word → Word) : Prop :=
  (∀ d r : Reg, encode (mk d.field r.field) = BitVec.ofNat 16 (code * 4096 + d.val * 256 + r.val * 16) ∧
    ∀ w : Word, w.toNat / 16 = code * 256 + d.val * 16 + r.val → decode w = .ok (mk d.field r.field)) ∧
  (∀ (d r : Reg) (s : State), ∃ t, exec (mk d.field r.field) s = .next t ∧
    RegsWritten s t d (result (s.operand d) (s.operand r)) ∧ MemKept s t ∧ OutKept s t ∧ PcAdvanced s t ∧
    Counted s t) ∧
  (∀ (fa fb : RegField) (s : State), 8 ≤ fa.toNat ∨ 8 ≤ fb.toNat → FaultsInvalidRegister (mk fa fb) s)

/-- The whole effect of an `R` instruction that writes its register (30_encoding.md R54, R59; 42_arith_logic.md
§2): its words, the bits 7:0 of which mean nothing; for every register and every state, exec answers a next state in which the register holds
`result` of its operand and everything else is as the frame says; a field of 8 to 15 faults. -/
def CompletesR (mk : RegField → Instr) (code : Nat) (result : Word → Word) : Prop :=
  (∀ d : Reg, encode (mk d.field) = BitVec.ofNat 16 (code * 4096 + d.val * 256) ∧
    ∀ w : Word, w.toNat / 256 = code * 16 + d.val → decode w = .ok (mk d.field)) ∧
  (∀ (d : Reg) (s : State), ∃ t, exec (mk d.field) s = .next t ∧
    RegsWritten s t d (result (s.operand d)) ∧ MemKept s t ∧ OutKept s t ∧ PcAdvanced s t ∧ Counted s t) ∧
  (∀ (f : RegField) (s : State), 8 ≤ f.toNat → FaultsInvalidRegister (mk f) s)

/-- The whole effect of a conditional jump (44_control.md R151, R152): its words; for every register and every
state, exec answers a next state whose `pc` is the target when the operand passes `taken` and the following
cell otherwise, everything else as the frame says; a field of 8 to 15 faults. -/
def CompletesJump (mk : RegField → Imm → Instr) (code : Nat) (taken : Word → Bool) : Prop :=
  (∀ (r : Reg) (a : Imm), encode (mk r.field a) = BitVec.ofNat 16 (code * 4096 + r.val * 256 + a.toNat) ∧
    decode (encode (mk r.field a)) = .ok (mk r.field a)) ∧
  (∀ (r : Reg) (a : Imm) (s : State), ∃ t, exec (mk r.field a) s = .next t ∧
    t.pc = (if taken (s.operand r) then a.toNat else s.pc + 1) ∧ RegsKept s t ∧ MemKept s t ∧ OutKept s t ∧
    Counted s t) ∧
  (∀ (f : RegField) (a : Imm) (s : State), 8 ≤ f.toNat → FaultsInvalidRegister (mk f a) s)

/-! ### Fields of an instruction -/

/-- The operand tuple of an instruction, unused fields zero (30_encoding.md R59). -/
def canonicalFields (i : Instr) : Fields :=
  match i with
  | .load rd addr  => ⟨i.opcode.bits, rd, 0, addr⟩
  | .store rs addr => ⟨i.opcode.bits, rs, 0, addr⟩
  | .add rd rs     => ⟨i.opcode.bits, rd, rs, 0⟩
  | .sub rd rs     => ⟨i.opcode.bits, rd, rs, 0⟩
  | .and rd rs     => ⟨i.opcode.bits, rd, rs, 0⟩
  | .or rd rs      => ⟨i.opcode.bits, rd, rs, 0⟩
  | .xor rd rs     => ⟨i.opcode.bits, rd, rs, 0⟩
  | .li rd imm     => ⟨i.opcode.bits, rd, 0, imm⟩
  | .jmp addr      => ⟨i.opcode.bits, 0, 0, addr⟩
  | .jz rs addr    => ⟨i.opcode.bits, rs, 0, addr⟩
  | .jnz rs addr   => ⟨i.opcode.bits, rs, 0, addr⟩
  | .mov rd rs     => ⟨i.opcode.bits, rd, rs, 0⟩
  | .inc rd        => ⟨i.opcode.bits, rd, 0, 0⟩
  | .dec rd        => ⟨i.opcode.bits, rd, 0, 0⟩
  | .out rs        => ⟨i.opcode.bits, rs, 0, 0⟩
  | .hlt           => ⟨i.opcode.bits, 0, 0, 0⟩

/-- Two words agree on the opcode and on every field that the opcode's form uses (30_encoding.md R54, R58). -/
def SameUsedFields (w v : Word) : Prop :=
  let f := decodeFields w
  let g := decodeFields v
  let c := (Opcode.ofBits f.opcode).signals
  f.opcode = g.opcode ∧ (c.useA = true → f.regA = g.regA) ∧ (c.useB = true → f.regB = g.regB) ∧
    (c.useImm = true → f.imm = g.imm)

/-! ### Invariant and reachable states -/

/-- The invariant of a built core (R23, with R5's bound and the canonical form of memory): at least 256
cells, memory in canonical form and inside its bounds, `pc` at most `MEM_SIZE`, and after HLT a zero
register 0 and a `pc` past the HLT. -/
abbrev State.Inv (s : State) : Prop :=
  Config.minMemSize ≤ s.memSize ∧ s.mem.wf ∧ (∀ c ∈ s.mem, c.1 < s.memSize) ∧ s.pc ≤ s.memSize ∧
    (s.halted = true → s.reg 0 = 0 ∧ 1 ≤ s.pc)

/-- The states reached from construction by `load_program`, `step`, `run`, `reset` and host memory writes
(R23). -/
inductive Reachable : State → Prop where
  | constructed {n : Nat} {f : Nat → Word} {s : State} : construct n f = .ok s → Reachable s
  | loaded {words : List Int} {base : Nat} {s t : State} :
      Reachable s → loadProgram words base s = .ok t → Reachable t
  | poked {a : Nat} {v : Int} {s t : State} : Reachable s → poke a v s = .ok t → Reachable t
  | stepped {s t : State} : Reachable s → step s = .next t → Reachable t
  | ran {n : Nat} {s : State} : Reachable s → Reachable (run n s).state
  | reset {s : State} : Reachable s → Reachable (hostReset s)

/-! ### Assembled lines -/

/-- A line that takes an address slot: its instruction body is not empty (30_encoding.md R67, R68). -/
def takesSlot (l : Assembler.Line) : Bool := !l.body.isEmpty

/-- A line that is blank or only a comment: no label and no body (30_encoding.md R67 item 4). -/
def isBlankLine (l : Assembler.Line) : Bool := l.label.isNone && l.body.isEmpty

/-- What a text says once comments, blank lines and line numbers are set aside: the labels and bodies of its
lines that are not blank, in order (30_encoding.md R77). -/
def lineContents (source : List Char) : List (Option (List Char) × List Char) :=
  ((Assembler.linesOf source).filter fun l => !isBlankLine l).map fun l => (l.label, l.body)

end Sys2Proof.Machine
end

