-- ==== Sys2Proof/Certificates/Slice0/Obligations.lean ====
section
/-! DEFINITION. The statements for the provers. Each docstring names the rule of spec/ it formalises, or says
that it is derived. -/

open Sys2Proof Sys2Proof.Machine

/-! ### The sixteen instructions: result, frame, words, and where they fault -/

/-- R110. LOAD writes the addressed cell to its register; the address is inside memory, as R5 requires of
every core (`MEM_SIZE >= 256`). -/
def Obligations.LoadReadsTheAddressedCell : Prop :=
  (∀ (d : Reg) (a : Imm), encode (.load d.field a) = BitVec.ofNat 16 (0x0000 + d.val * 256 + a.toNat) ∧
    decode (encode (.load d.field a)) = .ok (.load d.field a)) ∧
  (∀ (d : Reg) (a : Imm) (s : State), immAddress a < s.memSize → ∃ t, exec (.load d.field a) s = .next t ∧
    RegsWritten s t d (s.mem.read (immAddress a)) ∧ MemKept s t ∧ OutKept s t ∧ PcAdvanced s t ∧ Counted s t) ∧
  (∀ (f : RegField) (a : Imm) (s : State), 8 ≤ f.toNat → FaultsInvalidRegister (.load f a) s) ∧
  (∀ (a : Imm) (s : State), 256 ≤ s.memSize → immAddress a < s.memSize)

/-- R111. STORE writes its register (register 0 as zero) to the addressed cell and to no other cell. The cell
reads back the value in a memory in canonical form, which every step keeps (StepKeepsTheInvariant). -/
def Obligations.StoreWritesTheAddressedCell : Prop :=
  (∀ (r : Reg) (a : Imm), encode (.store r.field a) = BitVec.ofNat 16 (0x1000 + r.val * 256 + a.toNat) ∧
    decode (encode (.store r.field a)) = .ok (.store r.field a)) ∧
  (∀ (r : Reg) (a : Imm) (s : State), immAddress a < s.memSize → ∃ t, exec (.store r.field a) s = .next t ∧
    (s.mem.wf → t.mem.read (immAddress a) = s.operand r) ∧
    (∀ b, b ≠ immAddress a → t.mem.read b = s.mem.read b) ∧
    RegsKept s t ∧ OutKept s t ∧ PcAdvanced s t ∧ Counted s t) ∧
  (∀ (f : RegField) (a : Imm) (s : State), 8 ≤ f.toNat → FaultsInvalidRegister (.store f a) s) ∧
  (∀ (a : Imm) (s : State), 256 ≤ s.memSize → immAddress a < s.memSize)

/-- R120. ADD: `x[regA] <- (x[regA] + x[regB]) mod 65536`. -/
def Obligations.AddWritesTheSumModulo65536 : Prop :=
  CompletesRR .add 0x2 fun a b => BitVec.ofNat 16 ((a.toNat + b.toNat) % 65536)

/-- R121. SUB: `x[regA] <- (x[regA] - x[regB]) mod 65536`, the remainder of the integer difference. -/
def Obligations.SubWritesTheDifferenceModulo65536 : Prop :=
  CompletesRR .sub 0x3 fun a b => BitVec.ofInt 16 (((a.toNat : Int) - b.toNat) % 65536)

/-- R122. AND, bit by bit on all 16 bits. -/
def Obligations.AndWritesTheBitwiseAnd : Prop :=
  CompletesRR .and 0x4 fun a b => BitVec.ofFnLE fun k : Fin 16 => a[k] && b[k]

/-- R123. OR, bit by bit on all 16 bits. -/
def Obligations.OrWritesTheBitwiseOr : Prop :=
  CompletesRR .or 0x5 fun a b => BitVec.ofFnLE fun k : Fin 16 => a[k] || b[k]

/-- R124. XOR, bit by bit on all 16 bits. -/
def Obligations.XorWritesTheBitwiseExclusiveOr : Prop :=
  CompletesRR .xor 0x6 fun a b => BitVec.ofFnLE fun k : Fin 16 => a[k] ^^ b[k]

/-- R140. LI writes the zero-extended immediate. -/
def Obligations.LiWritesTheZeroExtendedImmediate : Prop :=
  (∀ (d : Reg) (v : Imm), encode (.li d.field v) = BitVec.ofNat 16 (0x7000 + d.val * 256 + v.toNat) ∧
    decode (encode (.li d.field v)) = .ok (.li d.field v)) ∧
  (∀ (d : Reg) (v : Imm) (s : State), ∃ t, exec (.li d.field v) s = .next t ∧
    RegsWritten s t d (BitVec.ofNat 16 v.toNat) ∧ MemKept s t ∧ OutKept s t ∧ PcAdvanced s t ∧ Counted s t) ∧
  (∀ (f : RegField) (v : Imm) (s : State), 8 ≤ f.toNat → FaultsInvalidRegister (.li f v) s)

/-- R150. JMP writes the absolute target over the incremented `pc`; bits 11:8 of its word mean nothing. -/
def Obligations.JmpWritesTheAbsoluteTarget : Prop :=
  (∀ a : Imm, encode (.jmp a) = BitVec.ofNat 16 (0x8000 + a.toNat)) ∧
  (∀ w : Word, w.toNat / 4096 = 8 → decode w = .ok (.jmp (BitVec.ofNat 8 (w.toNat % 256)))) ∧
  (∀ (a : Imm) (s : State), ∃ t, exec (.jmp a) s = .next t ∧ t.pc = a.toNat ∧ RegsKept s t ∧ MemKept s t ∧
    OutKept s t ∧ Counted s t)

/-- R151. JZ jumps when the register's current value is exactly zero. -/
def Obligations.JzJumpsWhenTheRegisterIsZero : Prop := CompletesJump .jz 0x9 fun v => decide (v.toNat = 0)

/-- R152. JNZ jumps when the register's current value is not zero. -/
def Obligations.JnzJumpsWhenTheRegisterIsNotZero : Prop := CompletesJump .jnz 0xA fun v => decide (v.toNat ≠ 0)

/-- R141. MOV copies all 16 bits of its second register. -/
def Obligations.MovCopiesTheSecondRegister : Prop := CompletesRR .mov 0xB fun _ b => b

/-- R125. INC: `x[regA] <- (x[regA] + 1) mod 65536`. -/
def Obligations.IncAddsOneModulo65536 : Prop :=
  CompletesR .inc 0xC fun a => BitVec.ofNat 16 ((a.toNat + 1) % 65536)

/-- R126. DEC: `x[regA] <- (x[regA] - 1) mod 65536`. -/
def Obligations.DecSubtractsOneModulo65536 : Prop :=
  CompletesR .dec 0xD fun a => BitVec.ofInt 16 (((a.toNat : Int) - 1) % 65536)

/-- R160. OUT appends the register's value (register 0 as zero) at the end of the output log. -/
def Obligations.OutAppendsTheRegisterValue : Prop :=
  (∀ r : Reg, encode (.out r.field) = BitVec.ofNat 16 (0xE000 + r.val * 256) ∧
    ∀ w : Word, w.toNat / 256 = 0xE0 + r.val → decode w = .ok (.out r.field)) ∧
  (∀ (r : Reg) (s : State), ∃ t, exec (.out r.field) s = .next t ∧ t.out = s.out ++ [s.operand r] ∧
    RegsKept s t ∧ MemKept s t ∧ PcAdvanced s t ∧ Counted s t) ∧
  (∀ (f : RegField) (s : State), 8 ≤ f.toNat → FaultsInvalidRegister (.out f) s)

/-- R161. HLT sets the halted flag and is not counted; afterwards every step returns false and changes nothing
and every run returns 0, until `reset`. -/
def Obligations.HltHaltsUntilReset : Prop :=
  encode .hlt = 0xF000 ∧
  (∀ w : Word, w.toNat / 4096 = 15 → decode w = .ok .hlt) ∧
  (∀ s : State, ∃ t, exec .hlt s = .next t ∧ t.halted = true ∧ t.cycles = s.cycles ∧ t.memSize = s.memSize ∧
    RegsKept s t ∧ MemKept s t ∧ OutKept s t ∧ PcAdvanced s t) ∧
  (∀ s : State, s.canStep = true → fetchDecode s = .ok .hlt → stepReturns s = some false) ∧
  (∀ s : State, s.halted = true → step s = .next s ∧ stepReturns s = some false ∧
    (∀ n, run n s = ⟨s, 0, none⟩) ∧ (hostReset s).halted = false)

/-- Derived from R43; the fault is the model's choice (log 4). LOAD and STORE of a cell outside memory fault:
possible only with fewer than 256 cells, which R5 excludes. -/
def Obligations.AccessOutsideMemoryFaults : Prop :=
  ∀ (r : Reg) (a : Imm) (s : State), s.memSize ≤ a.toNat →
    exec (.load r.field a) s = .fault (.addressOutsideMemory a.toNat) ∧
    exec (.store r.field a) s = .fault (.addressOutsideMemory a.toNat)

/-! ### Decoder and encoder -/

/-- Derived: the three laws of the one contract between decoder and encoder, which R64 marks as derived from R53
and R59. -/
def Obligations.DecoderAndEncoderAgree : Prop :=
  (∀ i, WellFormed i → decode (encode i) = .ok i) ∧
  (∀ w, isCanonical w = true → ∃ i, decode w = .ok i ∧ encode i = w) ∧
  (∀ w, regFault (decodeFields w) = false → ∃ i, decode w = .ok i ∧ isCanonical (encode i) = true ∧
    ∀ s t : State, s.canStep = true → t.canStep = true → s.fetchWord = some w →
      t.fetchWord = some (encode i) → step s = exec i s ∧ step t = exec i t)

/-- R53: the decoder's four fields, by their arithmetic, and the worked example. -/
def Obligations.FieldsAreCutFromTheWord : Prop :=
  (∀ w : Word, (decodeFields w).opcode.toNat = w.toNat / 4096 % 16 ∧
    (decodeFields w).regA.toNat = w.toNat / 256 % 16 ∧ (decodeFields w).regB.toNat = w.toNat / 16 % 16 ∧
    (decodeFields w).imm.toNat = w.toNat % 256) ∧
  decodeFields 0x712A = ⟨7, 1, 2, 42⟩ ∧ decode 0x712A = .ok (.li 1 42)

/-- R59: the encoder's word is `opcode * 4096 + regA * 256 + regB * 16 + imm` of its canonical fields, the
bitwise or too, at most one of regB and imm is nonzero, it decodes to the instruction (the unused regB of
`LI R1, 42` reads back 2), and the canonical words are the encoder's. -/
def Obligations.EncoderPacksCanonicalFields : Prop :=
  (∀ i, WellFormed i →
    (encode i).toNat = (canonicalFields i).opcode.toNat * 4096 + (canonicalFields i).regA.toNat * 256 +
      (canonicalFields i).regB.toNat * 16 + (canonicalFields i).imm.toNat ∧
    encode i = ((canonicalFields i).opcode.setWidth 16 <<< 12 ||| (canonicalFields i).regA.setWidth 16 <<< 8 |||
      (canonicalFields i).regB.setWidth 16 <<< 4 ||| (canonicalFields i).imm.setWidth 16) ∧
    ((canonicalFields i).regB = 0 ∨ (canonicalFields i).imm = 0) ∧ decode (encode i) = .ok i) ∧
  (decodeFields (encode (.li 1 42))).regB = 2 ∧
  (∀ w, isCanonical w = true ↔ ∃ i, WellFormed i ∧ encode i = w)

/-- R57: a used register field of 8 to 15 ends the step in `InvalidRegister(pc, w)`; any other word runs as a
well-formed instruction. Fields are taken from the word by arithmetic, forms from R54. -/
def Obligations.UsedRegisterFieldsDecideTheFault : Prop :=
  ∀ (s : State) (w : Word), s.canStep = true → s.fetchWord = some w →
    let form := (Opcode.ofBits (BitVec.ofNat 4 (w.toNat / 4096))).form
    let regA := w.toNat / 256 % 16
    let regB := w.toNat / 16 % 16
    if ((form = .RI ∨ form = .RR ∨ form = .R) ∧ 8 ≤ regA) ∨ (form = .RR ∧ 8 ≤ regB) then
      step s = .fault (.invalidRegister s.pc w)
    else ∃ i, decode w = .ok i ∧ WellFormed i ∧ step s = exec i s

/-- R58: bits outside the used fields are ignored, with the rule's four examples. -/
def Obligations.UnusedBitsAreIgnored : Prop :=
  (∀ w v : Word, SameUsedFields w v → ∀ i, decode w = .ok i ↔ decode v = .ok i) ∧
  decode 0xF123 = .ok .hlt ∧ decode 0x8705 = .ok (.jmp 5) ∧ decode 0xC2FF = .ok (.inc 2) ∧
  decode 0x212F = .ok (.add 1 2)

/-- Derived from R51 and R55: one word of each family, written out bit by bit, decodes as it should. -/
def Obligations.SampleWordsDecode : Prop :=
  decode 0b0000011111111111 = .ok (.load 7 255) ∧ decode 0b0010000100100000 = .ok (.add 1 2) ∧
  decode 0b0111000100101010 = .ok (.li 1 42) ∧ decode 0b1001001100010000 = .ok (.jz 3 16) ∧
  decode 0b1110001000000000 = .ok (.out 2) ∧ decode 0b1111000000000000 = .ok .hlt

/-! ### The step -/

/-- Derived from R91 and R93: when the cell at `pc` decodes to `i`, the step is exec of `i` at that state, and
`i` is well-formed. -/
def Obligations.StepRunsTheDecodedInstruction : Prop :=
  ∀ (s : State) (w : Word) (i : Instr), s.halted = false → s.pc < s.memSize → s.mem.read s.pc = w →
    decode w = .ok i → WellFormed i ∧ step s = exec i s

/-- R92: the guard of step 1 stops the step and changes nothing; behind it the fetch is inside memory. -/
def Obligations.GuardStopsWithoutChange : Prop :=
  (∀ s : State, s.halted = true ∨ s.memSize ≤ s.pc →
    step s = .next s ∧ stepOutcome s = .stop s ∧ stepReturns s = some false) ∧
  (∀ s : State, s.halted = false → s.pc < s.memSize → s.canStep = true ∧ s.fetchWord = some (s.mem.read s.pc))

/-- R8: the outcomes of one step, each with what `step` returns, when it happens and what it changes. -/
def Obligations.OutcomesOfOneStep : Prop :=
  ∀ s : State, 256 ≤ s.memSize →
    match stepOutcome s with
    | .next t => stepReturns s = some true ∧
        (∃ i, i ≠ .hlt ∧ fetchDecode s = .ok i ∧ exec i s = .next t) ∧ t.cycles = s.cycles + 1
    | .halt t => stepReturns s = some false ∧ fetchDecode s = .ok .hlt ∧
        t = { s with regs := s.regs.set 0 0, pc := s.pc + 1, halted := true }
    | .stop t => stepReturns s = some false ∧ (s.halted = true ∨ s.memSize ≤ s.pc) ∧ t = s
    | .fault r => stepReturns s = none ∧ ∃ w, s.fetchWord = some w ∧ regFault (decodeFields w) = true ∧
        r = .invalidRegister s.pc w
    | .refused _ => False

/-- R90: the sequencer's two states and their transitions, and the third condition, off the end. -/
def Obligations.RunningAndHaltedTransitions : Prop :=
  ∀ s : State,
    (∀ t, stepOutcome s = .next t → s.halted = false ∧ t.halted = false) ∧
    (∀ t, stepOutcome s = .halt t → s.halted = false ∧ t.halted = true ∧ fetchDecode s = .ok .hlt) ∧
    (s.halted = true → stepOutcome s = .stop s ∧ step s = .next s) ∧
    (hostReset s).halted = false ∧
    (s.halted = false → s.memSize ≤ s.pc → stepOutcome s = .stop s)

/-- Derived from R171, R172 and R43: from a state with the invariant a step never refuses, and its only fault
is `InvalidRegister` with the address and the word, for a word with an invalid used register field. -/
def Obligations.OnlyInvalidRegisterFaults : Prop :=
  ∀ s : State, s.Inv →
    match step s with
    | .next t => t.Inv
    | .fault (.invalidRegister a w) => a = s.pc ∧ s.mem.read s.pc = w ∧ regFault (decodeFields w) = true
    | .fault (.addressOutsideMemory _) => False
    | .refused _ => False

/-- Derived from R23: every step keeps the invariant, from every state that has it. -/
def Obligations.StepKeepsTheInvariant : Prop := ∀ s t : State, s.Inv → step s = .next t → t.Inv

/-- The reset state has the invariant. Derived from R24; its empty memory list is the model's choice (log 2). -/
def Obligations.ResetHasTheInvariant : Prop :=
  State.reset.Inv ∧ (∀ r, State.reset.reg r = 0) ∧ State.reset.pc = 0 ∧ State.reset.halted = false ∧
    State.reset.cycles = 0 ∧ State.reset.out = [] ∧ State.reset.memSize = 65536

/-- Derived: R23, which the spec marks as derived. What holds in every state that the host's operations reach from construction, and that a zero
register 0 is not among it. -/
def Obligations.ReachableStatesAreSound : Prop :=
  (∀ s, Reachable s → (∀ r, (s.reg r).toNat ≤ 65535) ∧ (∀ a, (s.mem.read a).toNat ≤ 65535) ∧ 0 ≤ s.pc ∧
    s.pc ≤ s.memSize ∧ (s.halted = false ∨ s.halted = true) ∧ 0 ≤ s.cycles ∧
    (s.halted = true → s.reg 0 = 0 ∧ 1 ≤ s.pc)) ∧
  (∃ s, Reachable s ∧ s.reg 0 ≠ 0)

/-- Derived from R61 and R26: the step computes what the datapath computes under the control signals of the
opcode alone. -/
def Obligations.StepAgreesWithTheDatapath : Prop :=
  ∀ (s : State) (w : Word), s.canStep = true → s.fetchWord = some w → step s = datapathCycle w s

/-- Derived from R12, R61 and R96: what every instruction leaves alone, by its control signals. The forced zero
of register 0 and the pc's increment are in every cycle. -/
def Obligations.SignalsFrameEveryInstruction : Prop :=
  ∀ (i : Instr) (s t : State), exec i s = .next t →
    let c := i.opcode.signals
    let f := canonicalFields i
    (c.regWe = false → RegsKept s t) ∧
    (c.regWe = true → ∀ r : Reg, r.field ≠ f.regA → t.reg r = s.operand r) ∧
    (c.memWe = false → MemKept s t) ∧
    (c.memWe = true → ∀ a, a ≠ immAddress f.imm → t.mem.read a = s.mem.read a) ∧
    (c.pcWe = .never → t.pc = s.pc + 1) ∧ (t.pc = s.pc + 1 ∨ t.pc = immTarget f.imm) ∧
    (c.outEn = false → OutKept s t) ∧
    t.halted = (s.halted || c.halt) ∧ t.cycles = s.cycles + (if c.halt then 0 else 1) ∧ t.memSize = s.memSize

/-! ### Register 0 -/

/-- Derived: R100, which the spec marks as derived from R94 and R91. Register 0 reads as zero in every instruction,
with the rule's consequences one by one. -/
def Obligations.RegisterZeroReadsAsZero : Prop :=
  ∀ (s : State) (r : Reg) (a v : Imm),
    (∀ (i : Instr) (x : Word), exec i (s.setReg 0 x) = exec i s) ∧
    (∃ t, exec (.add 0 r.field) s = .next t ∧ t.reg 0 = s.operand r) ∧
    (∃ t, exec (.or 0 r.field) s = .next t ∧ t.reg 0 = s.operand r) ∧
    (∃ t, exec (.xor 0 r.field) s = .next t ∧ t.reg 0 = s.operand r) ∧
    (∃ t, exec (.sub 0 r.field) s = .next t ∧ t.reg 0 = BitVec.ofInt 16 ((0 - ((s.operand r).toNat : Int)) % 65536)) ∧
    (∃ t, exec (.and 0 r.field) s = .next t ∧ t.reg 0 = 0) ∧
    (∃ t, exec (.inc 0) s = .next t ∧ t.reg 0 = 1) ∧
    (∃ t, exec (.dec 0) s = .next t ∧ t.reg 0 = 65535) ∧
    (∃ t, exec (.mov 0 r.field) s = .next t ∧ t.reg 0 = s.operand r) ∧
    (∃ t, exec (.li 0 v) s = .next t ∧ t.reg 0 = BitVec.ofNat 16 v.toNat) ∧
    (immAddress a < s.memSize → ∃ t, exec (.load 0 a) s = .next t ∧ t.reg 0 = s.mem.read (immAddress a)) ∧
    (immAddress a < s.memSize → s.mem.wf → ∃ t, exec (.store 0 a) s = .next t ∧ t.mem.read (immAddress a) = 0) ∧
    (∃ t, exec (.out 0) s = .next t ∧ t.out = s.out ++ [0]) ∧
    (∃ t, exec (.jz 0 a) s = .next t ∧ t.pc = a.toNat) ∧
    (∃ t, exec (.jnz 0 a) s = .next t ∧ t.pc = s.pc + 1) ∧
    (∃ t, exec (.add r.field 0) s = .next t ∧ t.reg r = s.operand r) ∧
    (∃ t, exec (.sub r.field 0) s = .next t ∧ t.reg r = s.operand r) ∧
    (∃ t, exec (.and r.field 0) s = .next t ∧ t.reg r = 0) ∧
    (∃ t, exec (.or r.field 0) s = .next t ∧ t.reg r = s.operand r) ∧
    (∃ t, exec (.xor r.field 0) s = .next t ∧ t.reg r = s.operand r) ∧
    (∃ t, exec (.mov r.field 0) s = .next t ∧ t.reg r = 0)

/-- Derived from R11, R94 and R100: what register 0 held before a step that executes is invisible to it and to
every run that gets past that step. -/
def Obligations.OldRegisterZeroIsInvisible : Prop :=
  ∀ (s : State) (x : Word), s.canStep = true →
    step (s.setReg 0 x) = step s ∧
    ∀ t n, stepOutcome s = .next t → run (n + 1) (s.setReg 0 x) = run (n + 1) s

/-! ### Memory and fetch -/

/-- Derived from R32 and R204: no step changes a cell above 255, and a step moves `pc` to the following cell or
to one of the cells 0 to 255, or leaves it when the core stops. -/
def Obligations.InstructionsReachTheFirst256Cells : Prop :=
  ∀ s t : State, step s = .next t →
    (∀ a, 256 ≤ a → t.mem.read a = s.mem.read a) ∧ (t.pc = s.pc + 1 ∨ t.pc < 256 ∨ t = s)

/-- Derived from R41: a STORE to the following cell is what the very next fetch reads, and a STORE to its own
cell does not disturb the STORE under way. -/
def Obligations.StoreIsSeenByTheNextFetch : Prop :=
  ∀ (s : State) (r : Reg) (a : Imm), s.Inv → s.canStep = true → fetchDecode s = .ok (.store r.field a) →
    ∃ t, step s = .next t ∧ t.pc = s.pc + 1 ∧
      (a.toNat = s.pc + 1 → t.fetchWord = some (s.operand r) ∧ t.canStep = true) ∧
      (a.toNat = s.pc → t.mem.read s.pc = s.operand r)

/-! ### Runs -/

/-- Derived from R98, R101 and D20: over a run the cycle counter rises by the count that `run` returns, which is
at most the budget. -/
def Obligations.CyclesCountTheStepsOfARun : Prop :=
  ∀ (n : Nat) (s : State), (run n s).state.cycles = s.cycles + (run n s).count ∧ (run n s).count ≤ n

/-- Derived from R101: a budget that runs out leaves the core as the last step did and a later run continues
from there; a run that ended before its budget is not changed by a larger budget. -/
def Obligations.RunsContinueWhereTheBudgetEnded : Prop :=
  ∀ (m n : Nat) (s : State),
    ((run m s).count = m → run (m + n) s =
      ⟨(run n (run m s).state).state, m + (run n (run m s).state).count, (run n (run m s).state).abort⟩) ∧
    ((run m s).count < m → run (m + n) s = run m s)

/-- Derived from R102 and D21: what each of the four endings of a run says of the state it ends in. -/
def Obligations.RunsEndInOneOfFourWays : Prop :=
  ∀ (n : Nat) (s : State),
    match (run n s).ending with
    | .halted => (run n s).state.halted = true
    | .offTheEnd => (run n s).state.halted = false ∧ (run n s).state.memSize ≤ (run n s).state.pc
    | .budget => (run n s).state.canStep = true ∧ (run n s).count = n
    | .aborted b => ∃ r, b = .fault r ∧ step (run n s).state = .fault r ∧ (run n s).count < n

/-- Derived from R103, for a run that leaves memory as it found it: reset and re-run give the same result,
output log included. -/
def Obligations.ResetAndRerunReproducesTheRun : Prop :=
  ∀ (n : Nat) (s : State), (run n (hostReset s)).state.mem = s.mem →
    run n (hostReset (run n (hostReset s)).state) = run n (hostReset s)

/-! ### Host operations -/

/-- R24: the values after construction, with any MEM_INIT, and after `reset`. -/
def Obligations.ConstructionAndResetValues : Prop :=
  (∀ (n : Nat) (f : Nat → Word), 256 ≤ n → ∃ s, construct n f = .ok s ∧ (∀ r, s.reg r = 0) ∧ s.pc = 0 ∧
    s.halted = false ∧ s.cycles = 0 ∧ s.out = [] ∧ s.memSize = n ∧ ∀ a, a < n → s.mem.read a = f a) ∧
  (∀ s : State, (∀ r, (hostReset s).reg r = 0) ∧ (hostReset s).pc = 0 ∧ (hostReset s).halted = false ∧
    (hostReset s).cycles = 0 ∧ (hostReset s).out = [] ∧ (hostReset s).mem = s.mem ∧
    (hostReset s).memSize = s.memSize)

/-- R190: `reset` in any state, and that nothing else clears `halted` or, a jump apart, lowers `pc`. -/
def Obligations.OnlyResetClearsHalted : Prop :=
  ∀ s : State, hostReset s = { s with regs := Vector.replicate 8 0, pc := 0, halted := false, cycles := 0, out := [] } ∧
    (∀ t, step s = .next t → s.halted = true → t.halted = true) ∧
    (∀ n, s.halted = true → (run n s).state.halted = true) ∧
    (∀ t words base, loadProgram words base s = .ok t → t.halted = s.halted ∧ t.pc = s.pc) ∧
    (∀ t a v, poke a v s = .ok t → t.halted = s.halted ∧ t.pc = s.pc) ∧
    (∀ t, step s = .next t → t.pc < s.pc → ∃ (f : RegField) (a : Imm),
      fetchDecode s = .ok (.jmp a) ∨ fetchDecode s = .ok (.jz f a) ∨ fetchDecode s = .ok (.jnz f a))

/-- R44: `load_program` copies each word masked to 16 bits, changes nothing else, and is refused as a whole
when it does not fit. The copied cells read back in a memory in canonical form (Memory.wf). -/
def Obligations.LoadProgramCopiesMaskedWords : Prop :=
  ∀ (words : List Int) (base : Nat) (s : State),
    (base + words.length ≤ s.memSize → ∃ t, loadProgram words base s = .ok t ∧ t = { s with mem := t.mem } ∧
      (s.mem.wf → ∀ k v, words[k]? = some v → ((t.mem.read (base + k)).toNat : Int) = v % 65536) ∧
      (∀ a, a < base ∨ base + words.length ≤ a → t.mem.read a = s.mem.read a) ∧ (words = [] → t = s)) ∧
    (s.memSize < base + words.length → loadProgram words base s = .error (.loadOverrun base words.length))

/-- R45: the host reads and writes any cell; a bad address or a bad value is refused. -/
def Obligations.HostAccessToMemory : Prop :=
  ∀ (a : Nat) (v : Int) (s : State),
    (a < s.memSize → peek a s = .ok (s.mem.read a)) ∧
    (a < s.memSize → 0 ≤ v → v ≤ 65535 → ∃ t, poke a v s = .ok t ∧ t = { s with mem := t.mem } ∧
      (s.mem.wf → ((t.mem.read a).toNat : Int) = v) ∧ ∀ b, b ≠ a → t.mem.read b = s.mem.read b) ∧
    (s.memSize ≤ a ∨ v < 0 ∨ 65535 < v → ∃ r, poke a v s = .error r) ∧
    (s.memSize ≤ a → ∃ r, peek a s = .error r)

/-- Derived from R192: a text with diagnostics is not run; otherwise the run is that of a freshly reset core
whose cells from 0 on hold the assembled words. -/
def Obligations.BootRunsTheAssembledWords : Prop :=
  ∀ (source : List Char) (budget : Nat) (s : State),
    ((Assembler.assemble source).diagnostics ≠ [] → ∃ r, boot source [] budget s = .error r) ∧
    ((Assembler.assemble source).diagnostics = [] → (Assembler.assemble source).words.length ≤ s.memSize →
      s.mem.wf → ∃ t, boot source [] budget s = .ok (run budget t) ∧ hostReset t = t ∧ t.memSize = s.memSize ∧
        ∀ k w, (Assembler.assemble source).words[k]? = some w → t.mem.read k = w)

/-! ### Assembler -/

/-- Derived from R59, R62, R70 and R72: every word the assembler emits is canonical, so it never faults. -/
def Obligations.AssembledWordsAreCanonical : Prop :=
  ∀ (source : List Char) (w : Word), w ∈ (Assembler.assemble source).words →
    isCanonical w = true ∧ regFault (decodeFields w) = false

/-- R77: with no diagnostics there is one word for each non-empty body; comments and blank lines shift no label
and change no word. -/
def Obligations.OneWordForEachInstructionLine : Prop :=
  (∀ source, (Assembler.assemble source).diagnostics = [] →
    (Assembler.assemble source).words.length = ((Assembler.linesOf source).filter takesSlot).length) ∧
  (∀ source other, lineContents source = lineContents other →
    Assembler.passOne (Assembler.linesOf source) 0 [] = Assembler.passOne (Assembler.linesOf other) 0 [] ∧
    (Assembler.assemble source).words = (Assembler.assemble other).words)

/-- R68: a label's address is the number of non-empty bodies before its first declaration. -/
def Obligations.LabelAddressCountsTheBodiesBefore : Prop :=
  ∀ (ls : List Assembler.Line) (name : List Char) (a : Nat), Assembler.validLabel name = true →
    ((Assembler.passOne ls 0 []).find name = some a ↔
      ∃ before l rest, ls = before ++ l :: rest ∧ l.label = some name ∧
        (∀ m ∈ before, m.label ≠ some name) ∧ a = (before.filter takesSlot).length)
end

