-- ==== Sys2Proof/Laws/Memory.lean ====
section
/-! SUPPORT. The laws of memory: a read after a write, the canonical form kept by every memory operation, and
the bounds of the listed addresses. -/

namespace Sys2Proof.Machine

/-! ### One cell -/

theorem Memory.read_eq_unlisted {m : Memory} {a : Nat} (h : ∀ c ∈ m, c.1 ≠ a) :
    Memory.read m a = Config.unlistedCell := by
  induction m with
  | nil => rfl
  | cons c rest ih =>
    have hc : c.1 ≠ a := h c (by simp)
    simp only [Memory.read, if_neg hc]
    exact ih fun d hd => h d (by simp [hd])

theorem Memory.read_consCell_ne (m : Memory) {a b : Nat} (v : Word) (h : b ≠ a) :
    Memory.read (Memory.consCell a v m) b = Memory.read m b := by
  unfold Memory.consCell
  split
  · rfl
  · simp [Memory.read, Ne.symm h]

theorem Memory.read_consCell_self {m : Memory} {a : Nat} (v : Word) (h : ∀ c ∈ m, c.1 ≠ a) :
    Memory.read (Memory.consCell a v m) a = v := by
  unfold Memory.consCell
  split
  · next hv => rw [hv]; exact Memory.read_eq_unlisted h
  · simp [Memory.read]

/-- A write leaves every other cell alone, in any memory. -/
theorem Memory.read_write_ne (m : Memory) {a b : Nat} (v : Word) (h : b ≠ a) :
    (m.write a v).read b = m.read b := by
  induction m with
  | nil => exact Memory.read_consCell_ne [] v h
  | cons c rest ih =>
    simp only [Memory.write]
    split
    · exact Memory.read_consCell_ne _ v h
    · split
      · next hac =>
        rw [Memory.read_consCell_ne rest v h]
        simp [Memory.read, ← hac, Ne.symm h]
      · simp only [Memory.read, ih]

/-- A read after a write of the same cell gives the value written, in a canonical memory. -/
theorem Memory.read_write_self {m : Memory} (hm : m.wf) (a : Nat) (v : Word) : (m.write a v).read a = v := by
  induction m with
  | nil => exact Memory.read_consCell_self v (by simp)
  | cons c rest ih =>
    obtain ⟨hp, hz⟩ := hm
    rw [List.pairwise_cons] at hp
    simp only [Memory.write]
    split
    · next hlt =>
      refine Memory.read_consCell_self v fun d hd => ?_
      rcases List.mem_cons.mp hd with rfl | hd
      · omega
      · have := hp.1 d hd; omega
    · split
      · next heq =>
        exact Memory.read_consCell_self v fun d hd => by have := hp.1 d hd; omega
      · next hne =>
        have hca : c.1 ≠ a := fun e => hne e.symm
        simp only [Memory.read, if_neg hca]
        exact ih ⟨hp.2, fun d hd => hz d (by simp [hd])⟩

theorem Memory.read_write {m : Memory} (hm : m.wf) (a b : Nat) (v : Word) :
    (m.write a v).read b = if b = a then v else m.read b := by
  by_cases h : b = a
  · subst h; simp [Memory.read_write_self hm]
  · simp [h, Memory.read_write_ne]

/-! ### Canonical form and bounds -/

@[simp] theorem Memory.wf_nil : Memory.wf [] := by simp [Memory.wf]

theorem Memory.mem_consCell {m : Memory} {a : Nat} {v : Word} {c : MemCell}
    (h : c ∈ Memory.consCell a v m) : c.1 = a ∨ c ∈ m := by
  unfold Memory.consCell at h
  split at h
  · exact .inr h
  · rcases List.mem_cons.mp h with rfl | h
    · exact .inl rfl
    · exact .inr h

/-- The cells that a write lists are the written one and cells listed before. -/
theorem Memory.mem_write {m : Memory} {a : Nat} {v : Word} {c : MemCell} (h : c ∈ m.write a v) :
    c.1 = a ∨ c ∈ m := by
  induction m with
  | nil => exact Memory.mem_consCell h
  | cons d rest ih =>
    simp only [Memory.write] at h
    split at h
    · exact Memory.mem_consCell h
    · split at h
      · exact (Memory.mem_consCell h).imp_right (List.mem_cons_of_mem _)
      · rcases List.mem_cons.mp h with rfl | h
        · exact .inr (by simp)
        · exact (ih h).imp_right (List.mem_cons_of_mem _)

theorem Memory.wf_consCell {m : Memory} (hm : m.wf) {a : Nat} (v : Word) (h : ∀ c ∈ m, a < c.1) :
    (Memory.consCell a v m).wf := by
  unfold Memory.consCell
  split
  · exact hm
  · next hv =>
    refine ⟨List.pairwise_cons.mpr ⟨h, hm.1⟩, fun c hc => ?_⟩
    rcases List.mem_cons.mp hc with rfl | hc
    · exact hv
    · exact hm.2 c hc

theorem Memory.wf_tail {c : MemCell} {m : Memory} (h : Memory.wf (c :: m)) : Memory.wf m :=
  ⟨(List.pairwise_cons.mp h.1).2, fun d hd => h.2 d (by simp [hd])⟩

/-- A write keeps the canonical form. -/
theorem Memory.wf_write {m : Memory} (hm : m.wf) (a : Nat) (v : Word) : (m.write a v).wf := by
  induction m with
  | nil => exact Memory.wf_consCell Memory.wf_nil v (by simp)
  | cons c rest ih =>
    have hp := List.pairwise_cons.mp hm.1
    simp only [Memory.write]
    split
    · next hlt =>
      refine Memory.wf_consCell hm v fun d hd => ?_
      rcases List.mem_cons.mp hd with rfl | hd
      · exact hlt
      · have := hp.1 d hd; omega
    · split
      · next heq => exact Memory.wf_consCell (Memory.wf_tail hm) v fun d hd => heq ▸ hp.1 d hd
      · next hlt hne =>
        have hr := ih (Memory.wf_tail hm)
        refine ⟨List.pairwise_cons.mpr ⟨fun d hd => ?_, hr.1⟩, fun d hd => ?_⟩
        · rcases Memory.mem_write hd with h | h
          · omega
          · exact hp.1 d h
        · rcases List.mem_cons.mp hd with rfl | hd
          · exact hm.2 _ (by simp)
          · exact hr.2 d hd

/-- A write inside the bounds keeps the listed addresses inside the bounds. -/
theorem Memory.bounded_write {m : Memory} {n a : Nat} (hm : ∀ c ∈ m, c.1 < n) (ha : a < n) (v : Word) :
    ∀ c ∈ m.write a v, c.1 < n := fun c hc =>
  (Memory.mem_write hc).elim (fun h => h ▸ ha) (hm c)

/-- In a canonical memory a listed cell reads as its value. -/
theorem Memory.read_of_mem {m : Memory} (hm : m.wf) {c : MemCell} (h : c ∈ m) : m.read c.1 = c.2 := by
  induction m with
  | nil => simp at h
  | cons d rest ih =>
    have hp := List.pairwise_cons.mp hm.1
    rcases List.mem_cons.mp h with rfl | h
    · simp [Memory.read]
    · have : d.1 ≠ c.1 := by have := hp.1 c h; omega
      simp only [Memory.read, if_neg this]
      exact ih (Memory.wf_tail hm) h

/-! ### The host's memory operations -/

theorem Memory.wf_load {m : Memory} (hm : m.wf) (base : Nat) (words : List Int) : (m.load base words).wf := by
  induction words generalizing m base with
  | nil => exact hm
  | cons v rest ih => exact ih (Memory.wf_write hm _ _) _

theorem Memory.bounded_load {m : Memory} {n base : Nat} {words : List Int} (hm : ∀ c ∈ m, c.1 < n)
    (h : base + words.length ≤ n) : ∀ c ∈ m.load base words, c.1 < n := by
  induction words generalizing m base with
  | nil => exact hm
  | cons v rest ih =>
    simp only [List.length_cons] at h
    exact ih (Memory.bounded_write hm (by omega) _) (by omega)

theorem Memory.mem_ofFn {n : Nat} {f : Nat → Word} {c : MemCell} :
    c ∈ Memory.ofFn n f ↔ c.1 < n ∧ c.2 = f c.1 ∧ c.2 ≠ Config.unlistedCell := by
  obtain ⟨a, v⟩ := c
  simp only [Memory.ofFn, List.mem_filterMap, List.mem_range]
  constructor
  · rintro ⟨b, hb, h⟩
    split at h
    · simp at h
    · next hz =>
      simp only [Option.some.injEq, Prod.mk.injEq] at h
      obtain ⟨rfl, rfl⟩ := h
      exact ⟨hb, rfl, hz⟩
  · rintro ⟨ha, rfl, hz⟩
    exact ⟨a, ha, by simp [hz]⟩

theorem Memory.wf_ofFn (n : Nat) (f : Nat → Word) : (Memory.ofFn n f).wf := by
  refine ⟨?_, fun c hc => (Memory.mem_ofFn.mp hc).2.2⟩
  unfold Memory.ofFn
  rw [List.pairwise_filterMap]
  refine List.Pairwise.imp ?_ List.pairwise_lt_range
  intro a b hab c hc d hd
  split at hc <;> split at hd <;> simp_all
  obtain rfl := hc
  obtain rfl := hd
  exact hab

/-- The reset memory has the canonical form. -/
theorem State.reset_mem_wf : State.reset.mem.wf := Memory.wf_nil

/-- Placing a fetch word keeps the canonical form. -/
theorem State.placeFetchWord_wf {s : State} (h : s.mem.wf) (w : Word) : (s.placeFetchWord w).mem.wf :=
  Memory.wf_write h _ _

end Sys2Proof.Machine
end

