-- ==== Sys2Proof/Laws/State.lean ====
section
/-! SUPPORT. The small lemmas of the state: what each update does to each field, and what a register read
gives after each update. -/

namespace Sys2Proof.Machine

/-! ### `setReg` -/

@[simp] theorem State.setReg_regs (s : State) (r : Reg) (v : Word) : (s.setReg r v).regs = s.regs.set r v := rfl
@[simp] theorem State.setReg_pc (s : State) (r : Reg) (v : Word) : (s.setReg r v).pc = s.pc := rfl
@[simp] theorem State.setReg_halted (s : State) (r : Reg) (v : Word) : (s.setReg r v).halted = s.halted := rfl
@[simp] theorem State.setReg_cycles (s : State) (r : Reg) (v : Word) : (s.setReg r v).cycles = s.cycles := rfl
@[simp] theorem State.setReg_mem (s : State) (r : Reg) (v : Word) : (s.setReg r v).mem = s.mem := rfl
@[simp] theorem State.setReg_memSize (s : State) (r : Reg) (v : Word) : (s.setReg r v).memSize = s.memSize := rfl
@[simp] theorem State.setReg_out (s : State) (r : Reg) (v : Word) : (s.setReg r v).out = s.out := rfl

/-! ### `setPc` -/

@[simp] theorem State.setPc_regs (s : State) (n : Nat) : (s.setPc n).regs = s.regs := rfl
@[simp] theorem State.setPc_pc (s : State) (n : Nat) : (s.setPc n).pc = n := rfl
@[simp] theorem State.setPc_halted (s : State) (n : Nat) : (s.setPc n).halted = s.halted := rfl
@[simp] theorem State.setPc_cycles (s : State) (n : Nat) : (s.setPc n).cycles = s.cycles := rfl
@[simp] theorem State.setPc_mem (s : State) (n : Nat) : (s.setPc n).mem = s.mem := rfl
@[simp] theorem State.setPc_memSize (s : State) (n : Nat) : (s.setPc n).memSize = s.memSize := rfl
@[simp] theorem State.setPc_out (s : State) (n : Nat) : (s.setPc n).out = s.out := rfl

/-! ### `emit` -/

@[simp] theorem State.emit_regs (s : State) (v : Word) : (s.emit v).regs = s.regs := rfl
@[simp] theorem State.emit_pc (s : State) (v : Word) : (s.emit v).pc = s.pc := rfl
@[simp] theorem State.emit_halted (s : State) (v : Word) : (s.emit v).halted = s.halted := rfl
@[simp] theorem State.emit_cycles (s : State) (v : Word) : (s.emit v).cycles = s.cycles := rfl
@[simp] theorem State.emit_mem (s : State) (v : Word) : (s.emit v).mem = s.mem := rfl
@[simp] theorem State.emit_memSize (s : State) (v : Word) : (s.emit v).memSize = s.memSize := rfl
@[simp] theorem State.emit_out (s : State) (v : Word) : (s.emit v).out = s.out ++ [v] := rfl

/-! ### `forceZero` -/

@[simp] theorem State.forceZero_regs (s : State) : s.forceZero.regs = s.regs.set 0 0 := rfl
@[simp] theorem State.forceZero_pc (s : State) : s.forceZero.pc = s.pc := rfl
@[simp] theorem State.forceZero_halted (s : State) : s.forceZero.halted = s.halted := rfl
@[simp] theorem State.forceZero_cycles (s : State) : s.forceZero.cycles = s.cycles := rfl
@[simp] theorem State.forceZero_mem (s : State) : s.forceZero.mem = s.mem := rfl
@[simp] theorem State.forceZero_memSize (s : State) : s.forceZero.memSize = s.memSize := rfl
@[simp] theorem State.forceZero_out (s : State) : s.forceZero.out = s.out := rfl

/-! ### `advancePc` -/

@[simp] theorem State.advancePc_regs (s : State) : s.advancePc.regs = s.regs := rfl
@[simp] theorem State.advancePc_pc (s : State) : s.advancePc.pc = s.pc + 1 := rfl
@[simp] theorem State.advancePc_halted (s : State) : s.advancePc.halted = s.halted := rfl
@[simp] theorem State.advancePc_cycles (s : State) : s.advancePc.cycles = s.cycles := rfl
@[simp] theorem State.advancePc_mem (s : State) : s.advancePc.mem = s.mem := rfl
@[simp] theorem State.advancePc_memSize (s : State) : s.advancePc.memSize = s.memSize := rfl
@[simp] theorem State.advancePc_out (s : State) : s.advancePc.out = s.out := rfl

/-! ### `beginCycle` -/

@[simp] theorem State.beginCycle_regs (s : State) : s.beginCycle.regs = s.regs.set 0 0 := rfl
@[simp] theorem State.beginCycle_pc (s : State) : s.beginCycle.pc = s.pc + 1 := rfl
@[simp] theorem State.beginCycle_halted (s : State) : s.beginCycle.halted = s.halted := rfl
@[simp] theorem State.beginCycle_cycles (s : State) : s.beginCycle.cycles = s.cycles := rfl
@[simp] theorem State.beginCycle_mem (s : State) : s.beginCycle.mem = s.mem := rfl
@[simp] theorem State.beginCycle_memSize (s : State) : s.beginCycle.memSize = s.memSize := rfl
@[simp] theorem State.beginCycle_out (s : State) : s.beginCycle.out = s.out := rfl

/-! ### `countCycle` -/

@[simp] theorem State.countCycle_regs (s : State) : s.countCycle.regs = s.regs := rfl
@[simp] theorem State.countCycle_pc (s : State) : s.countCycle.pc = s.pc := rfl
@[simp] theorem State.countCycle_halted (s : State) : s.countCycle.halted = s.halted := rfl
@[simp] theorem State.countCycle_cycles (s : State) : s.countCycle.cycles = s.cycles + 1 := rfl
@[simp] theorem State.countCycle_mem (s : State) : s.countCycle.mem = s.mem := rfl
@[simp] theorem State.countCycle_memSize (s : State) : s.countCycle.memSize = s.memSize := rfl
@[simp] theorem State.countCycle_out (s : State) : s.countCycle.out = s.out := rfl

/-! ### `setHalted` -/

@[simp] theorem State.setHalted_regs (s : State) : s.setHalted.regs = s.regs := rfl
@[simp] theorem State.setHalted_pc (s : State) : s.setHalted.pc = s.pc := rfl
@[simp] theorem State.setHalted_halted (s : State) : s.setHalted.halted = true := rfl
@[simp] theorem State.setHalted_cycles (s : State) : s.setHalted.cycles = s.cycles := rfl
@[simp] theorem State.setHalted_mem (s : State) : s.setHalted.mem = s.mem := rfl
@[simp] theorem State.setHalted_memSize (s : State) : s.setHalted.memSize = s.memSize := rfl
@[simp] theorem State.setHalted_out (s : State) : s.setHalted.out = s.out := rfl

/-! ### Register reads -/

@[simp] theorem State.reg_setReg_self (s : State) (r : Reg) (v : Word) : (s.setReg r v).reg r = v := by
  simp [State.reg]

theorem State.reg_setReg_ne (s : State) {r q : Reg} (v : Word) (h : q ≠ r) :
    (s.setReg r v).reg q = s.reg q := by
  have h' : r.val ≠ q.val := fun e => h (Fin.ext e.symm)
  simpa [State.reg] using Vector.getElem_set_ne (xs := s.regs) (x := v) r.isLt q.isLt h'

theorem State.reg_setReg (s : State) (r q : Reg) (v : Word) :
    (s.setReg r v).reg q = if q = r then v else s.reg q := by
  by_cases h : q = r
  · subst h; simp
  · simp [h, State.reg_setReg_ne]

@[simp] theorem State.reg_setPc (s : State) (n : Nat) (r : Reg) : (s.setPc n).reg r = s.reg r := rfl
@[simp] theorem State.reg_emit (s : State) (v : Word) (r : Reg) : (s.emit v).reg r = s.reg r := rfl
@[simp] theorem State.reg_advancePc (s : State) (r : Reg) : s.advancePc.reg r = s.reg r := rfl
@[simp] theorem State.reg_countCycle (s : State) (r : Reg) : s.countCycle.reg r = s.reg r := rfl
@[simp] theorem State.reg_setHalted (s : State) (r : Reg) : s.setHalted.reg r = s.reg r := rfl

/-- After steps 3 and 4 a register reads as the cycle's operand: zero for register 0 (R94, R100). -/
@[simp] theorem State.reg_beginCycle (s : State) (r : Reg) : s.beginCycle.reg r = s.operand r := by
  simp [State.beginCycle, State.forceZero, State.reg_setReg, State.operand]

/-- Two register files are equal when all eight reads are. -/
theorem State.regs_ext {s t : State} (h : ∀ r, s.reg r = t.reg r) : s.regs = t.regs :=
  Vector.ext fun i hi => h ⟨i, hi⟩

/-- The forced zero hides whatever register 0 held (R11, R94). -/
@[simp] theorem State.beginCycle_setReg_zero (s : State) (v : Word) :
    (s.setReg 0 v).beginCycle = s.beginCycle := by
  simp [State.beginCycle, State.forceZero, State.advancePc, State.setReg, State.setPc]

end Sys2Proof.Machine
end

