-- ==== Sys2Proof/Laws/Operands.lean ====
section
/-! SUPPORT. What each shared operation over registers, memory and operands can do, said once. -/

namespace Sys2Proof.Machine

/-! ### Memory accesses of the core -/

theorem State.readCell_of_lt {s : State} {a : Nat} (h : a < s.memSize) : s.readCell a = some (s.mem.read a) := by
  simp [State.readCell, h]

theorem State.readCell_of_le {s : State} {a : Nat} (h : s.memSize ≤ a) : s.readCell a = none := by
  simp [State.readCell, Nat.not_lt.mpr h]

theorem State.readCell_eq_some {s : State} {a : Nat} {v : Word} :
    s.readCell a = some v ↔ a < s.memSize ∧ s.mem.read a = v := by
  simp [State.readCell]

theorem State.writeCell_of_lt {s : State} {a : Nat} (h : a < s.memSize) (v : Word) :
    s.writeCell a v = some { s with mem := s.mem.write a v } := by
  simp [State.writeCell, h]

theorem State.writeCell_of_le {s : State} {a : Nat} (h : s.memSize ≤ a) (v : Word) : s.writeCell a v = none := by
  simp [State.writeCell, Nat.not_lt.mpr h]

theorem State.writeCell_eq_some {s t : State} {a : Nat} {v : Word} :
    s.writeCell a v = some t ↔ a < s.memSize ∧ t = { s with mem := s.mem.write a v } := by
  simp [State.writeCell, eq_comm]

/-- Steps 3 and 4 do not touch memory, so a body reads the cells the state had. -/
@[simp] theorem State.readCell_beginCycle (s : State) (a : Nat) : s.beginCycle.readCell a = s.readCell a := rfl

/-! ### Register operands -/

@[simp] theorem Reg.toNat_field (r : Reg) : r.field.toNat = r.val := by
  have := r.isLt
  simp [Reg.field, BitVec.toNat_ofNat]
  omega

/-- Every register is named by its field. -/
@[simp] theorem Reg.ofField_field (r : Reg) : Reg.ofField r.field = some r := by
  simp [Reg.ofField]

/-- A field names a register or is 8 to 15. -/
theorem Reg.ofField_cases (f : RegField) :
    (∃ r : Reg, f = r.field ∧ Reg.ofField f = some r) ∨ (8 ≤ f.toNat ∧ Reg.ofField f = none) := by
  by_cases h : f.toNat < 8
  · refine .inl ⟨⟨f.toNat, h⟩, ?_, by simp [Reg.ofField, h]⟩
    simp [Reg.field]
  · exact .inr ⟨Nat.not_lt.mp h, by simp [Reg.ofField, h]⟩

theorem Reg.ofField_of_le {f : RegField} (h : 8 ≤ f.toNat) : Reg.ofField f = none := by
  simp [Reg.ofField, Nat.not_lt.mpr h]

@[simp] theorem withReg_field (i : Instr) (r : Reg) (s : State) (k : Reg → Result) :
    withReg i r.field s k = k r := by
  simp [withReg]

theorem withReg_invalid (i : Instr) {f : RegField} (h : 8 ≤ f.toNat) (s : State) (k : Reg → Result) :
    withReg i f s k = .fault (.invalidRegister s.pc (encode i)) := by
  simp [withReg, Reg.ofField_of_le h, raiseInvalidRegister]

/-- If a register operand leads to a next state, its field names a register. -/
theorem withReg_next {i : Instr} {f : RegField} {s t : State} {k : Reg → Result}
    (h : withReg i f s k = .next t) : ∃ r : Reg, f = r.field ∧ k r = .next t := by
  rcases Reg.ofField_cases f with ⟨r, rfl, -⟩ | ⟨hf, -⟩
  · exact ⟨r, rfl, by simpa using h⟩
  · rw [withReg_invalid i hf] at h; cases h

@[simp] theorem withRegs_field (i : Instr) (a b : Reg) (s : State) (k : Reg → Reg → Result) :
    withRegs i a.field b.field s k = k a b := by
  simp [withRegs]

theorem withRegs_invalid (i : Instr) {fa fb : RegField} (h : 8 ≤ fa.toNat ∨ 8 ≤ fb.toNat) (s : State)
    (k : Reg → Reg → Result) : withRegs i fa fb s k = .fault (.invalidRegister s.pc (encode i)) := by
  unfold withRegs
  rcases Reg.ofField_cases fa with ⟨a, rfl, -⟩ | ⟨ha, -⟩
  · have hb : 8 ≤ fb.toNat := h.resolve_left (by have := a.isLt; simp only [Reg.toNat_field]; omega)
    simp [withReg_invalid i hb]
  · exact withReg_invalid i ha s _

theorem withRegs_next {i : Instr} {fa fb : RegField} {s t : State} {k : Reg → Reg → Result}
    (h : withRegs i fa fb s k = .next t) : ∃ a b : Reg, fa = a.field ∧ fb = b.field ∧ k a b = .next t := by
  obtain ⟨a, ha, h⟩ := withReg_next h
  obtain ⟨b, hb, h⟩ := withReg_next h
  exact ⟨a, b, ha, hb, h⟩

/-! ### The cycle and the forms -/

theorem countedCycle_next {s t : State} {body : State → State} :
    countedCycle s body = .next t ↔ t = (body s.beginCycle).countCycle := by
  simp [countedCycle, eq_comm]

theorem haltingCycle_next {s t : State} : haltingCycle s = .next t ↔ t = s.beginCycle.setHalted := by
  simp [haltingCycle, eq_comm]

/-- All that form `RR` can do when it answers a next state. -/
theorem aluRR_next {i : Instr} {f : Word → Word → Word} {rd rs : RegField} {s t : State}
    (h : aluRR i f rd rs s = .next t) : ∃ d r : Reg, rd = d.field ∧ rs = r.field ∧
      t = (s.beginCycle.setReg d (f (s.operand d) (s.operand r))).countCycle := by
  obtain ⟨d, r, hd, hr, h⟩ := withRegs_next h
  exact ⟨d, r, hd, hr, by simpa using countedCycle_next.mp h⟩

/-- All that form `R` with a result can do when it answers a next state. -/
theorem aluR_next {i : Instr} {f : Word → Word} {rd : RegField} {s t : State}
    (h : aluR i f rd s = .next t) :
    ∃ d : Reg, rd = d.field ∧ t = (s.beginCycle.setReg d (f (s.operand d))).countCycle := by
  obtain ⟨d, hd, h⟩ := withReg_next h
  exact ⟨d, hd, by simpa using countedCycle_next.mp h⟩

/-- All that a conditional jump can do when it answers a next state. -/
theorem jumpWhen_next {i : Instr} {test : Word → Bool} {rs : RegField} {addr : Imm} {s t : State}
    (h : jumpWhen i test rs addr s = .next t) : ∃ r : Reg, rs = r.field ∧
      t = (if test (s.operand r) then s.beginCycle.setPc addr.toNat else s.beginCycle).countCycle := by
  obtain ⟨r, hr, h⟩ := withReg_next h
  exact ⟨r, hr, by simpa [immTarget] using countedCycle_next.mp h⟩

end Sys2Proof.Machine
end

