-- ==== Sys2Proof/Laws/Meanings.lean ====
section
/-! SUPPORT. For each meaning that is not one line over a shared form, all that it can do when it answers a
next state. -/

namespace Sys2Proof.Machine

theorem execLoad_next {rd : RegField} {addr : Imm} {s t : State} (h : execLoad rd addr s = .next t) :
    ∃ d : Reg, rd = d.field ∧ addr.toNat < s.memSize ∧
      t = (s.beginCycle.setReg d (s.mem.read addr.toNat)).countCycle := by
  obtain ⟨d, hd, h⟩ := withReg_next h
  split at h
  · next v hv =>
    obtain ⟨hlt, rfl⟩ := State.readCell_eq_some.mp hv
    exact ⟨d, hd, hlt, countedCycle_next.mp h⟩
  · cases h

theorem execLoad_of_lt (d : Reg) {addr : Imm} {s : State} (h : addr.toNat < s.memSize) :
    execLoad d.field addr s = .next (s.beginCycle.setReg d (s.mem.read addr.toNat)).countCycle := by
  simp [execLoad, immAddress, State.readCell_of_lt h, countedCycle]

theorem execLoad_of_le (d : Reg) {addr : Imm} {s : State} (h : s.memSize ≤ addr.toNat) :
    execLoad d.field addr s = .fault (.addressOutsideMemory addr.toNat) := by
  simp [execLoad, immAddress, State.readCell_of_le h, raiseOutsideMemory]

theorem execStore_next {rs : RegField} {addr : Imm} {s t : State} (h : execStore rs addr s = .next t) :
    ∃ r : Reg, rs = r.field ∧ addr.toNat < s.memSize ∧
      t = { s.beginCycle.countCycle with mem := s.mem.write addr.toNat (s.operand r) } := by
  obtain ⟨r, hr, h⟩ := withReg_next h
  split at h
  · next u hu =>
    obtain ⟨hlt, rfl⟩ := State.writeCell_eq_some.mp hu
    refine ⟨r, hr, hlt, ?_⟩
    cases h
    simp [State.countCycle, immAddress]
  · cases h

theorem execStore_of_lt (r : Reg) {addr : Imm} {s : State} (h : addr.toNat < s.memSize) :
    execStore r.field addr s =
      .next { s.beginCycle.countCycle with mem := s.mem.write addr.toNat (s.operand r) } := by
  have h' : addr.toNat < s.beginCycle.memSize := h
  simp [execStore, immAddress, State.writeCell_of_lt h', State.countCycle]

theorem execStore_of_le (r : Reg) {addr : Imm} {s : State} (h : s.memSize ≤ addr.toNat) :
    execStore r.field addr s = .fault (.addressOutsideMemory addr.toNat) := by
  have h' : s.beginCycle.memSize ≤ addr.toNat := h
  simp [execStore, immAddress, State.writeCell_of_le h', raiseOutsideMemory]

theorem execLi_next {rd : RegField} {imm : Imm} {s t : State} (h : execLi rd imm s = .next t) :
    ∃ d : Reg, rd = d.field ∧ t = (s.beginCycle.setReg d (imm.setWidth 16)).countCycle := by
  obtain ⟨d, hd, h⟩ := withReg_next h
  exact ⟨d, hd, countedCycle_next.mp h⟩

theorem execJmp_next {addr : Imm} {s t : State} (h : execJmp addr s = .next t) :
    t = (s.beginCycle.setPc addr.toNat).countCycle := countedCycle_next.mp h

theorem execOut_next {rs : RegField} {s t : State} (h : execOut rs s = .next t) :
    ∃ r : Reg, rs = r.field ∧ t = (s.beginCycle.emit (s.operand r)).countCycle := by
  obtain ⟨r, hr, h⟩ := withReg_next h
  exact ⟨r, hr, by simpa using countedCycle_next.mp h⟩

theorem execHlt_next {s t : State} (h : execHlt s = .next t) : t = s.beginCycle.setHalted :=
  haltingCycle_next.mp h

end Sys2Proof.Machine
end

