-- ==== Sys2Proof/Laws/PerInstr.lean ====
section
/-! SUPPORT. The per-instruction family `EncodeOpcode`: an instruction's word holds its opcode in bits 15:12
(30_encoding.md rules R51 and R59). -/

namespace Sys2Proof.Laws

theorem opcode_packWord (op : Opcode) (a : RegField) (low : BitVec 8) :
    (decodeFields (packWord op a low)).opcode = op.bits := by
  simp only [decodeFields, packWord]
  rw [BitVec.extractLsb'_append_eq_of_le (by decide)]
  simp

/-- Bits 15:12 of the instruction's word are its opcode. -/
def EncodeOpcode.Statement (i : Instr) : Prop := (decodeFields (encode i)).opcode = i.opcode.bits

theorem EncodeOpcode.load (rd : RegField) (addr : Imm) : EncodeOpcode.Statement (.load rd addr) := opcode_packWord _ _ _
theorem EncodeOpcode.store (rs : RegField) (addr : Imm) : EncodeOpcode.Statement (.store rs addr) := opcode_packWord _ _ _
theorem EncodeOpcode.add (rd rs : RegField) : EncodeOpcode.Statement (.add rd rs) := opcode_packWord _ _ _
theorem EncodeOpcode.sub (rd rs : RegField) : EncodeOpcode.Statement (.sub rd rs) := opcode_packWord _ _ _
theorem EncodeOpcode.and (rd rs : RegField) : EncodeOpcode.Statement (.and rd rs) := opcode_packWord _ _ _
theorem EncodeOpcode.or (rd rs : RegField) : EncodeOpcode.Statement (.or rd rs) := opcode_packWord _ _ _
theorem EncodeOpcode.xor (rd rs : RegField) : EncodeOpcode.Statement (.xor rd rs) := opcode_packWord _ _ _
theorem EncodeOpcode.li (rd : RegField) (imm : Imm) : EncodeOpcode.Statement (.li rd imm) := opcode_packWord _ _ _
theorem EncodeOpcode.jmp (addr : Imm) : EncodeOpcode.Statement (.jmp addr) := opcode_packWord _ _ _
theorem EncodeOpcode.jz (rs : RegField) (addr : Imm) : EncodeOpcode.Statement (.jz rs addr) := opcode_packWord _ _ _
theorem EncodeOpcode.jnz (rs : RegField) (addr : Imm) : EncodeOpcode.Statement (.jnz rs addr) := opcode_packWord _ _ _
theorem EncodeOpcode.mov (rd rs : RegField) : EncodeOpcode.Statement (.mov rd rs) := opcode_packWord _ _ _
theorem EncodeOpcode.inc (rd : RegField) : EncodeOpcode.Statement (.inc rd) := opcode_packWord _ _ _
theorem EncodeOpcode.dec (rd : RegField) : EncodeOpcode.Statement (.dec rd) := opcode_packWord _ _ _
theorem EncodeOpcode.out (rs : RegField) : EncodeOpcode.Statement (.out rs) := opcode_packWord _ _ _
theorem EncodeOpcode.hlt : EncodeOpcode.Statement .hlt := opcode_packWord _ _ _

end Sys2Proof.Laws
end

