-- ==== Sys2Proof/Laws/Step.lean ====
section
/-! SUPPORT. What the fetch, one step, a named outcome and one more step of a run can do, said once. -/

namespace Sys2Proof.Machine

theorem State.canStep_iff {s : State} : s.canStep = true ↔ s.halted = false ∧ s.pc < s.memSize := by
  simp [State.canStep]

/-- The fetch of a core that can step reads the cell at `pc`. -/
theorem State.fetchWord_of_canStep {s : State} (h : s.canStep = true) : s.fetchWord = some (s.mem.read s.pc) :=
  State.readCell_of_lt (State.canStep_iff.mp h).2

theorem fetchDecode_ok {s : State} {i : Instr} :
    fetchDecode s = .ok i ↔ ∃ w, s.fetchWord = some w ∧ decode w = .ok i := by
  unfold fetchDecode
  cases s.fetchWord with
  | none => simp
  | some w => rcases hd : decode w with ⟨v⟩ | j <;> simp [hd]

/-- The decoder's one rejection carries the word it was given (R57). -/
theorem decode_error {w v : Word} (h : decode w = .error (.invalidRegister v)) :
    v = w ∧ regFault (decodeFields w) = true := by
  unfold decode at h
  split at h
  · next hf => cases h; exact ⟨rfl, hf⟩
  · cases h

/-- Everything the fetch and decode of a step can end in. -/
theorem fetchDecode_cases (s : State) :
    (s.memSize ≤ s.pc ∧ fetchDecode s = .error (.addressOutsideMemory s.pc)) ∨
    (∃ w, s.fetchWord = some w ∧ regFault (decodeFields w) = true ∧
      fetchDecode s = .error (.invalidRegister s.pc w)) ∨
    (∃ w, s.fetchWord = some w ∧ regFault (decodeFields w) = false ∧
      fetchDecode s = .ok (decodeFields w).instr) := by
  unfold fetchDecode State.fetchWord State.readCell
  by_cases h : s.pc < s.memSize
  · cases hf : regFault (decodeFields (s.mem.read s.pc)) <;> simp [h, decode, hf]
  · simp [h, Nat.not_lt.mp h]

/-- Everything that one step can answer with a next state: a `Stop`, or the cycle of the fetched
instruction. -/
theorem step_next {s t : State} (h : step s = .next t) :
    (s.canStep = false ∧ t = s) ∨ (s.canStep = true ∧ ∃ i, fetchDecode s = .ok i ∧ exec i s = .next t) := by
  unfold step at h
  split at h
  · next hc =>
    split at h
    · next i hi => exact .inr ⟨hc, i, hi, h⟩
    · cases h
  · next hc => cases h; exact .inl ⟨by simpa using hc, rfl⟩

theorem step_of_not_canStep {s : State} (h : s.canStep = false) : step s = .next s := by
  simp [step, h, stopStep]

theorem step_of_fetchDecode {s : State} {i : Instr} (h : s.canStep = true) (hi : fetchDecode s = .ok i) :
    step s = exec i s := by
  simp [step, h, hi]

theorem step_of_fetchFault {s : State} {r : Fault} (h : s.canStep = true) (hr : fetchDecode s = .error r) :
    step s = .fault r := by
  simp [step, h, hr]

/-- The named outcome, read off the step. -/
theorem stepOutcome_next {s t : State} (h : stepOutcome s = .next t) :
    s.canStep = true ∧ step s = .next t ∧ t.halted = false := by
  unfold stepOutcome at h
  split at h
  · next hc =>
    split at h
    · next u hu =>
      split at h
      · cases h
      · next hh => cases h; exact ⟨hc, hu, by simpa using hh⟩
    · cases h
    · cases h
  · cases h

theorem stepOutcome_halt {s t : State} (h : stepOutcome s = .halt t) :
    s.canStep = true ∧ step s = .next t ∧ t.halted = true := by
  unfold stepOutcome at h
  split at h
  · next hc =>
    split at h
    · next u hu =>
      split at h
      · next hh => cases h; exact ⟨hc, hu, hh⟩
      · cases h
    · cases h
    · cases h
  · cases h

theorem stepOutcome_stop {s t : State} (h : stepOutcome s = .stop t) : s.canStep = false ∧ t = s := by
  unfold stepOutcome at h
  split at h
  · split at h
    · split at h <;> cases h
    · cases h
    · cases h
  · next hc => cases h; exact ⟨by simpa using hc, rfl⟩

/-! ### The run loop -/

@[simp] theorem run_zero (s : State) : run 0 s = ⟨s, 0, none⟩ := rfl

theorem run_succ_next {s t : State} (n : Nat) (h : stepOutcome s = .next t) :
    run (n + 1) s = (run n t).addStep := by
  simp [run, h]

theorem run_succ_halt {s t : State} (n : Nat) (h : stepOutcome s = .halt t) : run (n + 1) s = ⟨t, 0, none⟩ := by
  simp [run, h]

theorem run_succ_stop {s t : State} (n : Nat) (h : stepOutcome s = .stop t) : run (n + 1) s = ⟨t, 0, none⟩ := by
  simp [run, h]

theorem run_succ_fault {s : State} {r : Fault} (n : Nat) (h : stepOutcome s = .fault r) :
    run (n + 1) s = ⟨s, 0, some (.fault r)⟩ := by
  simp [run, h]

@[simp] theorem RunResult.addStep_state (r : RunResult) : r.addStep.state = r.state := rfl
@[simp] theorem RunResult.addStep_count (r : RunResult) : r.addStep.count = r.count + 1 := rfl
@[simp] theorem RunResult.addStep_abort (r : RunResult) : r.addStep.abort = r.abort := rfl

end Sys2Proof.Machine
end

