-- ==== Sys2Proof/Tests/Slice0.lean ====
section
/-! SUPPORT. Tests: expected results from spec/95_test_vectors.md (the vector's name stands in each comment),
the words written out from the encodings of spec/30_encoding.md. -/

namespace Sys2Proof.Tests

open Sys2Proof.Machine

/-! ### Well-formedness: an ill-formed term for each register field -/

theorem smoke_form_RI_regA : ¬WellFormed (.load 8 0) ∧ ¬WellFormed (.store 15 0) ∧ ¬WellFormed (.li 15 5) ∧
    ¬WellFormed (.jz 10 0) ∧ ¬WellFormed (.jnz 8 0) := by decide
theorem smoke_form_RR_regA : ¬WellFormed (.add 9 0) ∧ ¬WellFormed (.sub 8 0) ∧ ¬WellFormed (.and 8 0) ∧
    ¬WellFormed (.or 10 5) ∧ ¬WellFormed (.xor 8 0) ∧ ¬WellFormed (.mov 8 0) := by decide
theorem smoke_form_RR_regB : ¬WellFormed (.add 1 8) ∧ ¬WellFormed (.sub 0 8) ∧ ¬WellFormed (.and 0 8) ∧
    ¬WellFormed (.or 0 8) ∧ ¬WellFormed (.xor 0 8) ∧ ¬WellFormed (.mov 1 9) := by decide
theorem smoke_form_R_regA : ¬WellFormed (.inc 8) ∧ ¬WellFormed (.dec 8) ∧ ¬WellFormed (.out 9) := by decide
theorem smoke_wellFormed : WellFormed (.add 7 7) ∧ WellFormed (.load 7 255) ∧ WellFormed (.jmp 5) ∧
    WellFormed .hlt := by decide

/-! ### Decoding words written out bit by bit -/

theorem test_decode_load : decode 0b0000011111111111 = .ok (.load 7 255) := by decide    -- V-DE-17
theorem test_decode_store : decode 0b0001000101100101 = .ok (.store 1 101) := by decide  -- V-DE-5
theorem test_decode_add : decode 0b0010000100101111 = .ok (.add 1 2) := by decide        -- V-DE-11
theorem test_decode_sub : decode 0b0011000100100000 = .ok (.sub 1 2) := by decide        -- V-AL-8
theorem test_decode_and : decode 0b0100001100100001 = .ok (.and 3 2) := by decide        -- V-DE-22
theorem test_decode_or : decode 0b0101000100100000 = .ok (.or 1 2) := by decide          -- V-AL-15
theorem test_decode_xor : decode 0b0110011101111000 = .ok (.xor 7 7) := by decide        -- V-DE-18
theorem test_decode_li : decode 0b0111000100101010 = .ok (.li 1 42) := by decide         -- V-DE-2
theorem test_decode_jmp : decode 0b1000111100000101 = .ok (.jmp 5) := by decide          -- V-DE-10
theorem test_decode_jz : decode 0b1001001100010000 = .ok (.jz 3 16) := by decide         -- V-CT-5
theorem test_decode_jnz : decode 0b1010000100000010 = .ok (.jnz 1 2) := by decide        -- V-DE-4
theorem test_decode_mov : decode 0b1011010100100000 = .ok (.mov 5 2) := by decide        -- V-DE-6
theorem test_decode_inc : decode 0b1100001011111111 = .ok (.inc 2) := by decide          -- V-DE-12
theorem test_decode_dec : decode 0b1101011111111111 = .ok (.dec 7) := by decide          -- V-DE-20
theorem test_decode_out : decode 0b1110001000000000 = .ok (.out 2) := by decide          -- V-DE-7
theorem test_decode_hlt : decode 0b1111111111111111 = .ok .hlt := by decide              -- V-DE-9
/-- V-DE-13 to V-DE-15 -/
theorem test_decode_rejects : decode 0x7F05 = .error (.invalidRegister 0x7F05) ∧
    decode 0x2180 = .error (.invalidRegister 0x2180) ∧ decode 0x2908 = .error (.invalidRegister 0x2908) := by decide
/-- V-DE-16, V-DE-19, V-DE-21, V-DE-23, V-DE-24 -/
theorem test_decodeTableWord_rejects : [0x0800, 0x9ABC, 0x5A5A, 0x3FFF, 0xEFFF].map (decodeTableWord 16)
    = [none, none, none, none, none] := by decide
/-- The canonical words of V-DE-10, V-DE-11, V-DE-12, V-DE-18, V-DE-22. -/
theorem test_encode : encode (.jmp 5) = 0x8005 ∧ encode (.add 1 2) = 0x2120 ∧ encode (.inc 2) = 0xC200 ∧
    encode (.xor 7 7) = 0x6770 ∧ encode (.and 3 2) = 0x4320 := by decide
theorem test_canonical : isCanonical 0x8005 = true ∧ isCanonical 0x8F05 = false ∧ isCanonical 0x212F = false ∧
    isCanonical 0xF000 = true ∧ isCanonical 0x0800 = false ∧ isCanonical 0xB190 = false := by decide
theorem test_decodeTableWord : decodeTableWord 16 0x712A = some (.li 1 42) := by decide

/-! ### One step on a small state -/

/-- The vectors' state (95_test_vectors.md Part 2): reset with `pc`, the listed cells and registers. -/
def vec (pc : Nat) (cells : List (Nat × Word)) (regs : List (Reg × Word)) : State :=
  regs.foldl (fun s p => s.setReg p.1 p.2)
    { State.reset with pc := pc, mem := cells.foldl (fun m c => m.write c.1 c.2) [] }

/-- What a test looks at after a step: something of the next state, or nothing. -/
def after {α : Type} (r : Result) (look : State → α) : Option α :=
  match r with
  | .next t => some (look t)
  | _ => none

/-- The fault a step ends in, if it does. -/
def faultOf (r : Result) : Option Fault :=
  match r with
  | .fault f => some f
  | _ => none

/-- V-LS-1 -/
theorem test_load : after (step (vec 0 [(0, 0x0164), (100, 999)] [])) (fun t => (t.reg 1, t.pc, t.cycles))
    = some (999, 1, 1) := by decide
/-- V-LS-4 -/
theorem test_load_r0 : after (step (vec 0 [(0, 0x0005), (5, 77)] [])) (fun t => t.reg 0) = some 77 := by decide
/-- V-LS-6 -/
theorem test_store_r0 : after (step (vec 0 [(0, 0x1010), (16, 0x5555)] [(0, 123)]))
    (fun t => (t.reg 0, t.mem.read 16)) = some (0, 0) := by decide
/-- V-LS-7 -/
theorem test_store_next_cell : after (step (vec 2 [(2, 0x1203)] [(2, 0xF000)]))
    (fun t => (t.fetchWord, t.pc)) = some (some 0xF000, 3) := by decide
/-- V-AL-2 -/
theorem test_add_wraps : after (step (vec 0 [(0, 0x2120)] [(1, 0xFFFF), (2, 1)])) (fun t => t.reg 1)
    = some 0 := by decide
/-- V-AL-5 -/
theorem test_add_r0 : after (step (vec 0 [(0, 0x2010)] [(0, 7), (1, 9)])) (fun t => t.reg 0)
    = some 9 := by decide
/-- V-AL-10 -/
theorem test_sub_wraps : after (step (vec 0 [(0, 0x3120)] [(2, 0xFFFF)])) (fun t => (t.reg 1, t.reg 2))
    = some (1, 0xFFFF) := by decide
/-- V-AL-13 -/
theorem test_and : after (step (vec 0 [(0, 0x4120)] [(1, 0xF0F0), (2, 0x0FF0)])) (fun t => t.reg 1)
    = some 0x00F0 := by decide
/-- V-AL-15 -/
theorem test_or : after (step (vec 0 [(0, 0x5120)] [(1, 0xF0F0), (2, 0x0FF0)])) (fun t => t.reg 1)
    = some 0xFFF0 := by decide
/-- V-AL-16 -/
theorem test_xor : after (step (vec 0 [(0, 0x6120)] [(1, 0xF0F0), (2, 0x0FF0)])) (fun t => t.reg 1)
    = some 0xFF00 := by decide
/-- V-AL-20 -/
theorem test_inc_r0 : after (step (vec 0 [(0, 0xC000)] [(0, 500)])) (fun t => t.reg 0) = some 1 := by decide
/-- V-AL-19 -/
theorem test_inc_wraps : after (step (vec 0 [(0, 0xC100)] [(1, 0xFFFF)])) (fun t => t.reg 1) = some 0 := by decide
/-- V-AL-29 -/
theorem test_dec_ignores_regB : after (step (vec 0 [(0, 0xD780)] [(7, 3)])) (fun t => t.reg 7) = some 2 := by decide
/-- V-AL-23 -/
theorem test_dec_wraps : after (step (vec 0 [(0, 0xD100)] [])) (fun t => t.reg 1) = some 0xFFFF := by decide
/-- V-MV-2 -/
theorem test_li_zero_extends : after (step (vec 0 [(0, 0x77FF)] [])) (fun t => t.reg 7) = some 0x00FF := by decide
/-- V-MV-4, V-R0-1 -/
theorem test_li_r0 : after (step (vec 0 [(0, 0x7005)] [])) (fun t => t.reg 0) = some 5 := by decide
/-- V-MV-6 -/
theorem test_mov : after (step (vec 0 [(0, 0xB520)] [(2, 0xBEEF), (5, 7)])) (fun t => (t.reg 5, t.reg 2))
    = some (0xBEEF, 0xBEEF) := by decide
/-- V-MV-8, V-R0-2 -/
theorem test_mov_from_r0 : after (step (vec 0 [(0, 0xB400)] [(0, 9), (4, 44)])) (fun t => (t.reg 0, t.reg 4))
    = some (0, 0) := by decide
/-- V-CT-1 -/
theorem test_jmp : after (step (vec 5 [(5, 0x8002)] [])) (fun t => (t.pc, t.cycles)) = some (2, 1) := by decide
/-- V-CT-8 -/
theorem test_jz_r0 : after (step (vec 7 [(7, 0x9020)] [(0, 5)])) (fun t => (t.pc, t.reg 0)) = some (32, 0) := by decide
/-- V-CT-7 -/
theorem test_jz_not_taken : after (step (vec 4 [(4, 0x9310)] [(3, 0x8000)])) (fun t => t.pc) = some 5 := by decide
/-- V-CT-11 -/
theorem test_jnz : after (step (vec 4 [(4, 0xA102)] [(1, 0xFFFF)])) (fun t => t.pc) = some 2 := by decide
/-- V-CT-12 -/
theorem test_jnz_r0 : after (step (vec 7 [(7, 0xA020)] [(0, 5)])) (fun t => t.pc) = some 8 := by decide
/-- V-SY-2, on a log that holds a value -/
theorem test_out : after (step { vec 0 [(0, 0xE100)] [(1, 0xFFFF)] with out := [5] }) (fun t => t.out)
    = some [5, 65535] := by decide
/-- V-SY-3 -/
theorem test_out_r0 : after (step (vec 0 [(0, 0xE000)] [(0, 9)])) (fun t => (t.out, t.reg 0)) = some ([0], 0) := by decide
/-- V-SY-7 -/
theorem test_hlt : after (step (vec 1 [(1, 0xFFFF)] [(0, 3)])) (fun t => (t.reg 0, t.pc, t.halted, t.cycles))
    = some (0, 2, true, 0) := by decide
/-- V-SY-8 -/
theorem test_hlt_last_cell : after (step (vec 65535 [(65535, 0xF000)] [])) (fun t => (t.pc, t.halted))
    = some (65536, true) := by decide
/-- V-SQ-13 -/
theorem test_fault : faultOf (step (vec 0 [(0, 0x2900)] [])) = some (.invalidRegister 0 0x2900) := by decide
/-- V-AL-27 -/
theorem test_fault_regB : faultOf (step (vec 0 [(0, 0x2180)] [])) = some (.invalidRegister 0 0x2180) := by decide
/-- V-SQ-1 -/
theorem test_stop_halted : stepOutcome { vec 2 [] [] with halted := true } = .stop { vec 2 [] [] with halted := true } := by
  decide
/-- V-SQ-4 -/
theorem test_stop_off_end : stepOutcome { vec 256 [] [(0, 9)] with memSize := 256 }
    = .stop { vec 256 [] [(0, 9)] with memSize := 256 } := by decide
/-- The first instruction after reset, as the host places it. -/
theorem test_withFetchWord : after (step (State.reset.withFetchWord 16 0x712A)) (fun t => (t.reg 1, t.pc))
    = some (42, 1) := by decide
/-- V-AL-2 again, by the control signals. -/
theorem test_datapath : after (datapathCycle 0x2120 (vec 0 [] [(1, 0xFFFF), (2, 1)])) (fun t => (t.reg 1, t.pc))
    = some (0, 1) := by decide

/-! ### Host operations -/

/-- V-SQ-6 -/
theorem test_hostReset : hostReset { vec 12 [(5, 0x1234)] [(0, 3), (1, 7)] with halted := true, cycles := 40, out := [1, 2] }
    = vec 0 [(5, 0x1234)] [] := by decide
/-- V-SQ-7 -/
theorem test_loadProgram_masks : loadProgram [0x1712A, 0xF000] 0 State.reset = .ok (vec 0 [(0, 0x712A), (1, 0xF000)] []) := by
  decide
/-- V-SQ-8 -/
theorem test_loadProgram_overrun : loadProgram [1, 2, 3] 65534 State.reset = .error (.loadOverrun 65534 3) := by decide
/-- U3 -/
theorem test_poke_refusals : poke 65536 0 State.reset = .error (.hostAddressOutsideMemory 65536) ∧
    poke 0 65536 State.reset = .error (.hostValueOutOfRange 65536) ∧
    peekReg 8 State.reset = .error (.hostRegisterOutOfRange 8) := by decide
/-- U5 -/
theorem test_construct_refused : construct 255 (fun _ => 0) = .error (.memoryTooSmall 255) := by decide
/-- S1, as one budgeted run of two steps. -/
theorem test_run : (run 10 (vec 0 [(0, 0x712A), (1, 0xF000)] [])).ending = .halted ∧
    (run 10 (vec 0 [(0, 0x712A), (1, 0xF000)] [])).count = 1 := by decide

/-! ### Assembler -/

/-- The words and the diagnostics' line numbers. -/
def asm (source : String) : List Word × List Nat :=
  let r := Assembler.assemble source.toList
  (r.words, r.diagnostics.map (·.line))

theorem test_asm_unknown : asm "FOO R1" = ([], [1]) := by decide                           -- V-AS-1
theorem test_asm_register : asm "LI R8,1" = ([], [1]) := by decide                         -- V-AS-2
theorem test_asm_range : asm "LI R1,256" = ([], [1]) ∧ asm "LI R1,-1" = ([], [1]) := by decide -- V-AS-3, V-AS-11
theorem test_asm_count : asm "LI R1" = ([], [1]) ∧ asm "LI R1,2,3" = ([], [1]) := by decide -- V-AS-4, V-AS-5
theorem test_asm_value : asm "LI R1,zz" = ([], [1]) := by decide                           -- V-AS-6
theorem test_asm_skew : asm "a: LI R1,b\nBAD\nb: HLT" = ([0x7102, 0xF000], [2]) := by decide -- V-AS-7
theorem test_asm_labels : asm "x:\ny: HLT\nJMP y\nJMP x" = ([0xF000, 0x8000, 0x8000], []) := by decide -- V-AS-8
theorem test_asm_comments : asm "  ; only comment\n\nstart: # c\n  li r1 , 0x1f ; c\n jmp start"
    = ([0x711F, 0x8000], []) := by decide                                                  -- V-AS-9
theorem test_asm_label_number : asm "10: JMP 10" = ([0x8000], []) := by decide             -- V-AS-10
theorem test_asm_commas : asm "LI R1 42" = ([0x712A], []) ∧ asm "LI R1, 42" = ([0x712A], []) ∧
    asm "li r1,42" = ([0x712A], []) := by decide                                           -- V-AS-12
/-- U12: exotic white space (U+00A0) in a label name, which R79 does not record, and in a body. -/
theorem test_asm_exotic_space : asm "a\u00A0b: HLT" = ([0xF000], [1]) ∧ asm "LI\u00A0R1,1" = ([], [1]) ∧
    asm "a\u3000: JMP a\u3000" = ([], [1, 1]) := by decide
theorem test_asm_duplicate : asm "a: HLT\na: HLT" = ([0xF000, 0xF000], [2]) := by decide   -- V-AS-14

/-! ### Witnesses: a concrete state and operands for the hypotheses of each statement, clause by clause -/

/-- A core of the least size, 256 cells. -/
def least (pc : Nat) (cells : List (Nat × Word)) : State := { vec pc cells [] with memSize := 256 }

/-- A core of 4 cells, which no construction gives, for the fault outside memory. -/
def tiny : State := { vec 0 [] [] with memSize := 4 }

theorem witness_LoadReadsTheAddressedCell : immAddress 255 < (least 0 []).memSize ∧ 8 ≤ (8 : RegField).toNat ∧
    256 ≤ (least 0 []).memSize := by decide
theorem witness_StoreWritesTheAddressedCell : immAddress 255 < (least 0 []).memSize ∧ (least 0 [(255, 7)]).mem.wf ∧
    (254 : Nat) ≠ immAddress 255 ∧ 8 ≤ (8 : RegField).toNat ∧ 256 ≤ (least 0 []).memSize := by decide
/-- ADD, SUB, AND, OR, XOR and MOV: an ignored low nibble; and a field of 8 in either place. -/
theorem witness_CompletesRR : [0x2, 0x3, 0x4, 0x5, 0x6, 0xB].all (fun code =>
    (BitVec.ofNat 16 (code * 4096 + 0x77F)).toNat / 16 == code * 256 + (7 : Reg).val * 16 + (7 : Reg).val) = true ∧
    (8 ≤ (8 : RegField).toNat ∨ 8 ≤ (7 : RegField).toNat) ∧ (8 ≤ (7 : RegField).toNat ∨ 8 ≤ (8 : RegField).toNat) := by
  decide
/-- INC, DEC and OUT: an ignored low byte; and a field of 8. -/
theorem witness_CompletesR : [0xC, 0xD, 0xE].all (fun code =>
    (BitVec.ofNat 16 (code * 4096 + 0x7FF)).toNat / 256 == code * 16 + (7 : Reg).val) = true ∧
    8 ≤ (8 : RegField).toNat := by decide
/-- LI, JZ and JNZ: a field of 8. -/
theorem witness_LiAndConditionalJumps : 8 ≤ (8 : RegField).toNat := by decide
theorem witness_JmpWritesTheAbsoluteTarget : (0x8F05 : Word).toNat / 4096 = 8 := by decide
theorem witness_HltHaltsUntilReset : (0xFFFF : Word).toNat / 4096 = 15 ∧
    ((least 255 [(255, 0xF000)]).canStep = true ∧ fetchDecode (least 255 [(255, 0xF000)]) = .ok .hlt) ∧
    { least 3 [] with halted := true }.halted = true := by decide
theorem witness_AccessOutsideMemoryFaults : tiny.memSize ≤ (4 : Imm).toNat := by decide
theorem witness_DecoderAndEncoderAgree : WellFormed (.add 7 0) ∧ isCanonical 0x7701 = true ∧
    regFault (decodeFields 0x2F2F) = true ∧ regFault (decodeFields 0x212F) = false ∧
    (least 255 [(255, 0x212F)]).canStep = true ∧ (least 0 [(0, 0x2120)]).canStep = true ∧
    (least 255 [(255, 0x212F)]).fetchWord = some 0x212F ∧ decode 0x212F = .ok (.add 1 2) ∧
    (least 0 [(0, 0x2120)]).fetchWord = some (encode (.add 1 2)) := by decide
theorem witness_EncoderPacksCanonicalFields : WellFormed (.mov 7 7) ∧ isCanonical 0xB770 = true ∧
    isCanonical 0xB777 = false := by decide
/-- Both branches, at the field values 8 and 7. -/
theorem witness_UsedRegisterFieldsDecideTheFault : (least 255 [(255, 0x2080)]).canStep = true ∧
    (least 255 [(255, 0x2080)]).fetchWord = some 0x2080 ∧ (Opcode.ofBits (BitVec.ofNat 4 2)).form = .RR ∧
    8 ≤ (0x2080 : Word).toNat / 16 % 16 ∧
    (least 255 [(255, 0x2770)]).fetchWord = some 0x2770 ∧ ¬8 ≤ (0x2770 : Word).toNat / 16 % 16 ∧
    ¬8 ≤ (0x2770 : Word).toNat / 256 % 16 := by decide
theorem witness_UnusedBitsAreIgnored : SameUsedFields 0x212F 0x2120 ∧ SameUsedFields 0x8F05 0x8005 := by
  unfold SameUsedFields; decide
theorem witness_StepRunsTheDecodedInstruction : (least 255 [(255, 0x712A)]).halted = false ∧
    (least 255 [(255, 0x712A)]).pc < (least 255 [(255, 0x712A)]).memSize ∧
    (least 255 [(255, 0x712A)]).mem.read 255 = 0x712A ∧ decode 0x712A = .ok (.li 1 42) := by decide
theorem witness_GuardStopsWithoutChange : { least 0 [] with halted := true }.halted = true ∧
    (least 256 []).memSize ≤ (least 256 []).pc ∧ (least 255 []).halted = false ∧
    (least 255 []).pc < (least 255 []).memSize := by decide
/-- Every outcome but the refusal, which no step has. -/
theorem witness_OutcomesOfOneStep : 256 ≤ (least 0 []).memSize ∧ stepReturns (least 255 [(255, 0xC100)]) = some true ∧
    stepReturns (least 255 [(255, 0xF000)]) = some false ∧ stepReturns (least 256 []) = some false ∧
    stepOutcome (least 255 [(255, 0x2900)]) = .fault (.invalidRegister 255 0x2900) := by decide
theorem witness_RunningAndHaltedTransitions :
    stepOutcome (least 0 [(0, 0x8000)]) = .next { least 0 [(0, 0x8000)] with cycles := 1 } ∧
    stepOutcome (least 255 [(255, 0xF000)]) = .halt { least 256 [(255, 0xF000)] with halted := true } ∧
    { least 1 [] with halted := true }.halted = true ∧
    (least 256 []).halted = false ∧ (least 256 []).memSize ≤ (least 256 []).pc := by decide
theorem witness_OnlyInvalidRegisterFaults : (least 255 [(255, 0x2900)]).Inv ∧
    faultOf (step (least 255 [(255, 0x2900)])) = some (.invalidRegister 255 0x2900) ∧ (least 256 []).Inv := by decide
theorem witness_StepKeepsTheInvariant : (least 255 [(255, 0xF000)]).Inv ∧
    after (step (least 255 [(255, 0xF000)])) id = some { least 256 [(255, 0xF000)] with halted := true } := by decide
/-- A reached state that is halted: one cell poked, one step taken. -/
theorem witness_ReachableStatesAreSound : ∃ s, Reachable s ∧ s.halted = true := by
  refine ⟨_, .stepped (.poked (.constructed (n := 256) (f := fun _ => 0) (if_pos (by decide)))
    (a := 0) (v := 0xF000) rfl) rfl, rfl⟩
theorem witness_StepAgreesWithTheDatapath : (least 255 [(255, 0x1F00)]).canStep = true ∧
    (least 255 [(255, 0x1F00)]).fetchWord = some 0x1F00 := by decide
/-- A state after exec for each write the control signals name. -/
theorem witness_SignalsFrameEveryInstruction :
    (after (exec (.li 1 255) (least 0 [])) fun t => t.reg 1) = some 255 ∧ (Instr.opcode (.li 1 255)).signals.regWe = true ∧
    (after (exec (.store 0 255) (least 0 [(255, 1)])) fun t => t.mem) = some [] ∧
    (Instr.opcode (.store 0 255)).signals.memWe = true ∧
    (after (exec (.jz 0 255) (least 0 [])) fun t => t.pc) = some 255 ∧
    (after (exec .hlt (least 0 [])) fun t => t.halted) = some true := by decide
theorem witness_RegisterZeroReadsAsZero : immAddress 255 < (least 0 []).memSize ∧ (least 0 [(255, 1)]).mem.wf := by
  decide
theorem witness_OldRegisterZeroIsInvisible : (least 255 [(255, 0x9000)]).canStep = true ∧
    stepReturns (least 255 [(255, 0x9000)]) = some true := by decide
theorem witness_InstructionsReachTheFirst256Cells :
    (after (step (vec 300 [(300, 0x8002)] [])) fun t => t.pc) = some 2 ∧ (256 : Nat) ≤ 256 := by decide
/-- A STORE to the following cell, and a STORE to its own cell. -/
theorem witness_StoreIsSeenByTheNextFetch : (least 254 [(254, 0x11FF)]).Inv ∧ (least 254 [(254, 0x11FF)]).canStep = true ∧
    fetchDecode (least 254 [(254, 0x11FF)]) = .ok (.store (1 : Reg).field 255) ∧ (255 : Imm).toNat = 254 + 1 ∧
    fetchDecode (least 255 [(255, 0x11FF)]) = .ok (.store (1 : Reg).field 255) ∧ (255 : Imm).toNat = 255 := by decide
/-- A budget that runs out, and a run that ends before its budget. -/
theorem witness_RunsContinueWhereTheBudgetEnded : (run 2 (least 0 [(0, 0x8000)])).count = 2 ∧
    (run 2 (least 254 [(255, 0xF000)])).count < 2 := by decide
/-- The four endings. -/
theorem witness_RunsEndInOneOfFourWays : (run 2 (least 254 [(255, 0xF000)])).ending = .halted ∧
    (run 2 (least 255 [])).ending = .offTheEnd ∧ (run 1 (least 0 [])).ending = .budget ∧
    (run 2 (least 254 [(255, 0x2900)])).ending = .aborted (.fault (.invalidRegister 255 0x2900)) := by decide
theorem witness_ResetAndRerunReproducesTheRun :
    (run 3 (hostReset (least 9 [(0, 0x71FF), (1, 0xE100), (2, 0xF000)]))).state.mem
      = (least 9 [(0, 0x71FF), (1, 0xE100), (2, 0xF000)]).mem := by decide
theorem witness_ConstructionAndResetValues : (256 : Nat) ≤ 256 ∧ (255 : Nat) < 256 := by decide
/-- A halted step, a host load, a host write, and a jump back. -/
theorem witness_OnlyResetClearsHalted :
    after (step { least 1 [] with halted := true }) id = some { least 1 [] with halted := true } ∧
    loadProgram [1] 255 (least 0 []) = .ok (least 0 [(255, 1)]) ∧ poke 255 1 (least 0 []) = .ok (least 0 [(255, 1)]) ∧
    after (step (least 5 [(5, 0x8002)])) id = some { least 2 [(5, 0x8002)] with cycles := 1 } ∧ 2 < 5 := by decide
/-- A load that ends at the last cell, one that overruns by one, and an empty one. -/
theorem witness_LoadProgramCopiesMaskedWords : 254 + [0x1712A, -1].length ≤ (least 0 []).memSize ∧ (least 0 []).mem.wf ∧
    ([0x1712A, -1] : List Int)[1]? = some (-1) ∧ ((253 : Nat) < 254 ∨ 254 + [0x1712A, -1].length ≤ 253) ∧
    (least 0 []).memSize < 255 + [0x1712A, -1].length := by decide
theorem witness_HostAccessToMemory : 255 < (least 0 []).memSize ∧ (0 : Int) ≤ 65535 ∧ (65535 : Int) ≤ 65535 ∧
    (least 0 []).mem.wf ∧ (254 : Nat) ≠ 255 ∧ (least 0 []).memSize ≤ 256 ∧ (-1 : Int) < 0 ∧ (65535 : Int) < 65536 := by
  decide
theorem witness_BootRunsTheAssembledWords : (Assembler.assemble "BAD".toList).diagnostics ≠ [] ∧
    (Assembler.assemble "LI R1,42\nHLT".toList).diagnostics = [] ∧
    (Assembler.assemble "LI R1,42\nHLT".toList).words.length ≤ (least 0 []).memSize ∧ (least 0 []).mem.wf ∧
    (Assembler.assemble "LI R1,42\nHLT".toList).words[1]? = some 0xF000 := by decide
theorem witness_AssembledWordsAreCanonical : 0x712A ∈ (Assembler.assemble "LI R1,42".toList).words := by decide
theorem witness_OneWordForEachInstructionLine :
    (Assembler.assemble "a: ; c\n\n JMP a".toList).diagnostics = [] ∧
    lineContents "a: ; c\n\n JMP a".toList = lineContents "a:\nJMP a # d".toList := by decide
theorem witness_LabelAddressCountsTheBodiesBefore : Assembler.validLabel "b".toList = true ∧
    (Assembler.passOne (Assembler.linesOf "HLT\nb: HLT\nb: HLT".toList) 0 []).find "b".toList = some 1 := by decide

end Sys2Proof.Tests
end

section
/-! Proofs for 00_scope.md: the four outcomes of one step (R8). -/

namespace Sys2Proof.Machine

/-! ### A valid register operand lets the meaning go on -/

theorem Reg.exists_field_of_lt {f : RegField} (h : f.toNat < 8) : ∃ r : Reg, f = r.field := by
  rcases Reg.ofField_cases f with ⟨r, hr, -⟩ | ⟨hle, -⟩
  · exact ⟨r, hr⟩
  · omega

theorem withReg_countedCycle_answers {f : RegField} (h : f.toNat < 8) (i : Instr) (s : State)
    (body : Reg → State → State) : ∃ t, withReg i f s (fun r => countedCycle s (body r)) = .next t := by
  obtain ⟨r, rfl⟩ := Reg.exists_field_of_lt h
  exact ⟨_, withReg_field i r s _⟩

theorem aluRR_answers {rd rs : RegField} (hd : rd.toNat < 8) (hs : rs.toNat < 8) (i : Instr)
    (f : Word → Word → Word) (s : State) : ∃ t, aluRR i f rd rs s = .next t := by
  obtain ⟨d, rfl⟩ := Reg.exists_field_of_lt hd
  obtain ⟨r, rfl⟩ := Reg.exists_field_of_lt hs
  exact ⟨_, withRegs_field i d r s _⟩

/-! ### What an instruction answers -/

/-- With at least 256 cells every 8-bit address is inside memory (R5). -/
theorem imm_lt_memSize {s : State} (hm : 256 ≤ s.memSize) (a : Imm) : a.toNat < s.memSize :=
  Nat.lt_of_lt_of_le a.isLt hm

/-- A well-formed instruction completes: nothing but an invalid register field can stop it (R8, R57). -/
theorem exec_answers_of_wellFormed {i : Instr} {s : State} (hw : WellFormed i) (hm : 256 ≤ s.memSize) :
    ∃ t, exec i s = .next t := by
  cases i with
  | load rd addr =>
    obtain ⟨d, rfl⟩ := Reg.exists_field_of_lt (hw rd (by simp [Instr.regFields]))
    exact ⟨_, execLoad_of_lt d (imm_lt_memSize hm addr)⟩
  | store rs addr =>
    obtain ⟨r, rfl⟩ := Reg.exists_field_of_lt (hw rs (by simp [Instr.regFields]))
    exact ⟨_, execStore_of_lt r (imm_lt_memSize hm addr)⟩
  | add rd rs | sub rd rs | and rd rs | or rd rs | xor rd rs | mov rd rs =>
    exact aluRR_answers (hw rd (by simp [Instr.regFields])) (hw rs (by simp [Instr.regFields])) _ _ s
  | li r _ | jz r _ | jnz r _ | inc r | dec r | out r =>
    exact withReg_countedCycle_answers (hw r (by simp [Instr.regFields])) _ s _
  | jmp addr => exact ⟨_, rfl⟩
  | hlt => exact ⟨_, rfl⟩

theorem aluRR_counted {i : Instr} {f : Word → Word → Word} {rd rs : RegField} {s t : State}
    (h : aluRR i f rd rs s = .next t) : Counted s t := by
  obtain ⟨d, r, -, -, rfl⟩ := aluRR_next h
  exact ⟨rfl, rfl, rfl⟩

theorem aluR_counted {i : Instr} {f : Word → Word} {rd : RegField} {s t : State}
    (h : aluR i f rd s = .next t) : Counted s t := by
  obtain ⟨d, -, rfl⟩ := aluR_next h
  exact ⟨rfl, rfl, rfl⟩

theorem jumpWhen_counted {i : Instr} {test : Word → Bool} {rs : RegField} {addr : Imm} {s t : State}
    (h : jumpWhen i test rs addr s = .next t) : Counted s t := by
  obtain ⟨r, -, rfl⟩ := jumpWhen_next h
  split <;> exact ⟨rfl, rfl, rfl⟩

/-- Every instruction but HLT counts its cycle and leaves the halted flag and the memory size alone (R97). -/
theorem exec_counted {i : Instr} {s t : State} (hi : i ≠ .hlt) (h : exec i s = .next t) : Counted s t := by
  cases i with
  | load rd addr => obtain ⟨d, -, -, rfl⟩ := execLoad_next h; exact ⟨rfl, rfl, rfl⟩
  | store rs addr => obtain ⟨r, -, -, rfl⟩ := execStore_next h; exact ⟨rfl, rfl, rfl⟩
  | add _ _ | sub _ _ | and _ _ | or _ _ | xor _ _ | mov _ _ => exact aluRR_counted h
  | li rd imm => obtain ⟨d, -, rfl⟩ := execLi_next h; exact ⟨rfl, rfl, rfl⟩
  | jmp addr => obtain rfl := execJmp_next h; exact ⟨rfl, rfl, rfl⟩
  | jz _ _ | jnz _ _ => exact jumpWhen_counted h
  | inc _ | dec _ => exact aluR_counted h
  | out rs => obtain ⟨r, -, rfl⟩ := execOut_next h; exact ⟨rfl, rfl, rfl⟩
  | hlt => exact absurd rfl hi

theorem exec_hlt (s : State) : exec .hlt s = .next s.beginCycle.setHalted := rfl

/-! ### The register-field test and the decoded instruction -/

/-- The fault test looks at exactly the register fields that the decoded instruction uses (R54, R57). -/
theorem regFault_eq_false_iff (f : Fields) : regFault f = false ↔ WellFormed f.instr := by
  unfold regFault Fields.instr
  cases Opcode.ofBits f.opcode <;> simp [Opcode.form, Opcode.instr, WellFormed, Instr.regFields]

theorem wellFormed_of_fetchDecode {s : State} {i : Instr} (h : fetchDecode s = .ok i) : WellFormed i := by
  rcases fetchDecode_cases s with ⟨-, he⟩ | ⟨w, -, -, he⟩ | ⟨w, -, hf, he⟩
  · cases h.symm.trans he
  · cases h.symm.trans he
  · cases h.symm.trans he
    exact (regFault_eq_false_iff _).mp hf

/-! ### The outcome of one step -/

theorem stepOutcome_of_not_canStep {s : State} (h : s.canStep = false) : stepOutcome s = .stop s := by
  simp [stepOutcome, h]

theorem stepOutcome_of_fetchFault {s : State} {r : Fault} (h : s.canStep = true)
    (hr : fetchDecode s = .error r) : stepOutcome s = .fault r := by
  simp [stepOutcome, h, step_of_fetchFault h hr]

theorem stepOutcome_of_exec {s t : State} {i : Instr} (h : s.canStep = true) (hi : fetchDecode s = .ok i)
    (ht : exec i s = .next t) : stepOutcome s = if t.halted then .halt t else .next t := by
  simp [stepOutcome, h, step_of_fetchDecode h hi, ht]

theorem State.canStep_eq_false_iff {s : State} : s.canStep = false ↔ s.halted = true ∨ s.memSize ≤ s.pc := by
  simp [State.canStep, imp_iff_or_not, or_comm]

/-- R8 as an inversion: one step of a core with at least 256 cells ends in one of the four outcomes, in
each for its own reason. -/
theorem stepOutcome_cases {s : State} (hm : 256 ≤ s.memSize) :
    (s.canStep = false ∧ stepOutcome s = .stop s) ∨
    (∃ w, s.fetchWord = some w ∧ regFault (decodeFields w) = true ∧
      stepOutcome s = .fault (.invalidRegister s.pc w)) ∨
    (fetchDecode s = .ok .hlt ∧ stepOutcome s = .halt s.beginCycle.setHalted) ∨
    (∃ i t, i ≠ .hlt ∧ fetchDecode s = .ok i ∧ exec i s = .next t ∧ Counted s t ∧ stepOutcome s = .next t) := by
  cases hc : s.canStep with
  | false => exact .inl ⟨rfl, stepOutcome_of_not_canStep hc⟩
  | true =>
    obtain ⟨hrun, hpc⟩ := State.canStep_iff.mp hc
    rcases fetchDecode_cases s with ⟨hle, -⟩ | ⟨w, hw, hf, he⟩ | ⟨w, -, -, hok⟩
    · omega
    · exact .inr (.inl ⟨w, hw, hf, stepOutcome_of_fetchFault hc he⟩)
    · generalize (decodeFields w).instr = i at hok
      by_cases hi : i = .hlt
      · subst hi
        exact .inr (.inr (.inl ⟨hok, stepOutcome_of_exec hc hok (exec_hlt s)⟩))
      · obtain ⟨t, ht⟩ := exec_answers_of_wellFormed (wellFormed_of_fetchDecode hok) hm
        obtain ⟨-, hhalted, -⟩ := exec_counted hi ht
        have hkept : t.halted = false := hhalted.trans hrun
        exact .inr (.inr (.inr ⟨i, t, hi, hok, ht, exec_counted hi ht,
          by simpa [hkept] using stepOutcome_of_exec hc hok ht⟩))

/-- Settles O26, by the four cases of `stepOutcome_cases`. -/
theorem outcomesOfOneStep : Obligations.OutcomesOfOneStep := by
  intro s hm
  rcases stepOutcome_cases hm with ⟨hc, ho⟩ | ⟨w, hw, hf, ho⟩ | ⟨hi, ho⟩ | ⟨i, t, hi, hok, ht, hcount, ho⟩
  · have hret : stepReturns s = some false := by simp [stepReturns, ho]
    rw [ho]
    exact ⟨hret, State.canStep_eq_false_iff.mp hc, rfl⟩
  · have hret : stepReturns s = none := by simp [stepReturns, ho]
    rw [ho]
    exact ⟨hret, w, hw, hf, rfl⟩
  · have hret : stepReturns s = some false := by simp [stepReturns, ho]
    rw [ho]
    exact ⟨hret, hi, rfl⟩
  · have hret : stepReturns s = some true := by simp [stepReturns, ho]
    obtain ⟨hcycles, -, -⟩ := hcount
    rw [ho]
    exact ⟨hret, ⟨i, hi, hok, ht⟩, hcycles⟩

end Sys2Proof.Machine
end

section
/-! Proofs for 10_state.md: the values after construction and after reset (R24). -/

namespace Sys2Proof.Machine

/-! ### The memory a core is built with -/

/-- A cell inside the built memory reads as MEM_INIT gives it, listed or not; a cell beyond it is not listed. -/
theorem Memory.read_ofFn (n : Nat) (f : Nat → Word) (a : Nat) :
    (Memory.ofFn n f).read a = if a < n then f a else Config.unlistedCell := by
  by_cases hlisted : a < n ∧ f a ≠ Config.unlistedCell
  · obtain ⟨ha, hz⟩ := hlisted
    have hmem : (a, f a) ∈ Memory.ofFn n f := Memory.mem_ofFn.mpr ⟨ha, rfl, hz⟩
    rw [if_pos ha]
    exact Memory.read_of_mem (Memory.wf_ofFn n f) hmem
  · have habsent : ∀ c ∈ Memory.ofFn n f, c.1 ≠ a := by
      rintro c hc rfl
      obtain ⟨ha, hv, hz⟩ := Memory.mem_ofFn.mp hc
      exact hlisted ⟨ha, hv ▸ hz⟩
    rw [Memory.read_eq_unlisted habsent]
    split
    · next ha => exact Classical.not_not.mp fun hz => hlisted ⟨ha, Ne.symm hz⟩
    · rfl

/-! ### Construction and reset, field by field -/

theorem State.reg_of_regs_zero {s : State} (h : s.regs = Vector.replicate 8 0) (r : Reg) : s.reg r = 0 := by
  simp [State.reg, h]

/-- R191: a core of at least 256 cells is built, and is the reset state but for its memory. -/
theorem construct_of_le {n : Nat} (f : Nat → Word) (h : 256 ≤ n) :
    construct n f = .ok { State.reset with memSize := n, mem := Memory.ofFn n f } := if_pos h

@[simp] theorem hostReset_regs (s : State) : (hostReset s).regs = Vector.replicate 8 0 := rfl
@[simp] theorem hostReset_pc (s : State) : (hostReset s).pc = 0 := rfl
@[simp] theorem hostReset_halted (s : State) : (hostReset s).halted = false := rfl
@[simp] theorem hostReset_cycles (s : State) : (hostReset s).cycles = 0 := rfl
@[simp] theorem hostReset_mem (s : State) : (hostReset s).mem = s.mem := rfl
@[simp] theorem hostReset_memSize (s : State) : (hostReset s).memSize = s.memSize := rfl
@[simp] theorem hostReset_out (s : State) : (hostReset s).out = [] := rfl

@[simp] theorem hostReset_reg (s : State) (r : Reg) : (hostReset s).reg r = 0 :=
  State.reg_of_regs_zero (hostReset_regs s) r

/-- Settles O42: the built core is the reset state with the memory of `Memory.read_ofFn`, and reset clears
every field but memory and its size. -/
theorem constructionAndResetValues : Obligations.ConstructionAndResetValues := by
  refine ⟨fun n f hn => ⟨_, construct_of_le f hn, State.reg_of_regs_zero rfl, rfl, rfl, rfl, rfl, rfl, ?_⟩,
    fun s => ⟨hostReset_reg s, hostReset_pc s, hostReset_halted s, hostReset_cycles s, hostReset_out s,
      hostReset_mem s, hostReset_memSize s⟩⟩
  intro a ha
  exact (Memory.read_ofFn n f a).trans (if_pos ha)

end Sys2Proof.Machine
end

section
/-! Proofs for 20_memory.md: the host's load, peek and poke (R44, R45). -/

namespace Sys2Proof.Machine

/-! ### Masking to 16 bits -/

theorem maskWord_toNat (v : Int) : ((maskWord v).toNat : Int) = v % 65536 := by
  rw [maskWord, BitVec.toNat_ofInt]
  omega

theorem maskWord_toNat_of_range {v : Int} (h0 : 0 ≤ v) (h : v < 65536) : ((maskWord v).toNat : Int) = v :=
  (maskWord_toNat v).trans (Int.emod_eq_of_lt h0 h)

/-! ### Copying words into memory -/

/-- A load leaves every cell outside its range alone, in any memory. -/
theorem Memory.read_load_outside (m : Memory) {base a : Nat} {words : List Int}
    (h : a < base ∨ base + words.length ≤ a) : (m.load base words).read a = m.read a := by
  induction words generalizing m base with
  | nil => rfl
  | cons v rest ih =>
    rw [List.length_cons] at h
    calc ((m.write base (maskWord v)).load (base + 1) rest).read a
      _ = (m.write base (maskWord v)).read a := ih _ (by omega)
      _ = m.read a := Memory.read_write_ne m _ (by omega)

/-- In a canonical memory a loaded cell reads as its masked word: the later writes all go to higher cells. -/
theorem Memory.read_load_inside {m : Memory} (hm : m.wf) {base k : Nat} {words : List Int} {v : Int}
    (h : words[k]? = some v) : (m.load base words).read (base + k) = maskWord v := by
  induction words generalizing m base k with
  | nil => simp at h
  | cons w rest ih =>
    cases k with
    | zero =>
      obtain rfl : w = v := by simpa using h
      calc ((m.write base (maskWord w)).load (base + 1) rest).read base
        _ = (m.write base (maskWord w)).read base := Memory.read_load_outside _ (.inl (Nat.lt_succ_self base))
        _ = maskWord w := Memory.read_write_self hm base _
    | succ k =>
      have hrest : rest[k]? = some v := by simpa using h
      rw [← Nat.add_assoc, Nat.add_right_comm]
      exact ih (Memory.wf_write hm base (maskWord w)) hrest

theorem loadProgram_of_le {words : List Int} {base : Nat} {s : State} (h : base + words.length ≤ s.memSize) :
    loadProgram words base s = .ok { s with mem := s.mem.load base words } := if_pos h

theorem loadProgram_of_lt {words : List Int} {base : Nat} {s : State} (h : s.memSize < base + words.length) :
    loadProgram words base s = .error (.loadOverrun base words.length) := if_neg (Nat.not_le.mpr h)

/-- Settles O44: the loaded cells by `Memory.read_load_inside`, the others by `Memory.read_load_outside`. -/
theorem loadProgramCopiesMaskedWords : Obligations.LoadProgramCopiesMaskedWords := by
  refine fun words base s => ⟨fun hfit => ⟨_, loadProgram_of_le hfit, rfl, ?copied, ?kept, ?empty⟩,
    loadProgram_of_lt⟩
  case copied =>
    intro hm k v hk
    rw [Memory.read_load_inside hm hk, maskWord_toNat]
  case kept => exact fun a ha => Memory.read_load_outside s.mem ha
  case empty => rintro rfl; rfl

/-! ### Peek and poke -/

theorem peek_of_lt {a : Nat} {s : State} (h : a < s.memSize) : peek a s = .ok (s.mem.read a) := by
  simp [peek, State.readCell_of_lt h]

theorem peek_of_le {a : Nat} {s : State} (h : s.memSize ≤ a) :
    peek a s = .error (.hostAddressOutsideMemory a) := by
  simp [peek, State.readCell_of_le h]

theorem poke_of_lt {a : Nat} {v : Int} {s : State} (ha : a < s.memSize) (hv : 0 ≤ v ∧ v < 65536) :
    poke a v s = .ok { s with mem := s.mem.write a (maskWord v) } := by
  simp [poke, hv, State.writeCell_of_lt ha]

theorem poke_of_value_outside {v : Int} (a : Nat) (s : State) (hv : ¬(0 ≤ v ∧ v < 65536)) :
    poke a v s = .error (.hostValueOutOfRange v) := if_neg hv

theorem poke_of_address_outside {a : Nat} {v : Int} {s : State} (ha : s.memSize ≤ a) (hv : 0 ≤ v ∧ v < 65536) :
    poke a v s = .error (.hostAddressOutsideMemory a) := by
  simp [poke, hv, State.writeCell_of_le ha]

/-- R45's refusals together: the value is checked first, then the address. -/
theorem poke_refused {a : Nat} {v : Int} {s : State} (h : s.memSize ≤ a ∨ v < 0 ∨ 65535 < v) :
    ∃ r, poke a v s = .error r := by
  by_cases hv : 0 ≤ v ∧ v < 65536
  · exact ⟨_, poke_of_address_outside (h.resolve_right (by omega)) hv⟩
  · exact ⟨_, poke_of_value_outside a s hv⟩

/-- Settles O45, from what peek and poke answer inside and outside their preconditions. -/
theorem hostAccessToMemory : Obligations.HostAccessToMemory := by
  refine fun a v s => ⟨peek_of_lt, fun ha h0 h1 => ?poked, poke_refused, fun ha => ⟨_, peek_of_le ha⟩⟩
  case poked =>
    have hlt : v < 65536 := by omega
    refine ⟨_, poke_of_lt ha ⟨h0, hlt⟩, rfl, fun hm => ?_, fun b hb => Memory.read_write_ne s.mem _ hb⟩
    rw [Memory.read_write_self hm, maskWord_toNat_of_range h0 hlt]

end Sys2Proof.Machine
end

section
/-! Proofs for 30_encoding.md section 1: the decoder and the encoder (R53 to R59). -/

namespace Sys2Proof.Machine

/-! ### The fields of a word -/

@[simp] theorem Opcode.ofBits_bits (op : Opcode) : Opcode.ofBits op.bits = op := by cases op <;> rfl

@[simp] theorem Opcode.bits_ofBits (b : BitVec 4) : (Opcode.ofBits b).bits = b := by revert b; decide

@[simp] theorem decodeFields_packWord (op : Opcode) (a : RegField) (low : BitVec 8) :
    decodeFields (packWord op a low) = ⟨op.bits, a, low.extractLsb' 4 4, low⟩ := by
  have hregA : (op.bits ++ (a ++ low)).extractLsb' 8 4 = a := by
    rw [BitVec.extractLsb'_append_eq_of_add_le (by decide)]
    exact BitVec.extractLsb'_append_eq_left
  have hlow (start len : Nat) (h : start + len ≤ 8) :
      (op.bits ++ (a ++ low)).extractLsb' start len = low.extractLsb' start len := by
    rw [BitVec.extractLsb'_append_eq_of_add_le (by omega), BitVec.extractLsb'_append_eq_of_add_le h]
  have himm : low.extractLsb' 0 8 = low := by simp
  simp only [decodeFields, packWord, hregA, hlow 4 4 (by decide), hlow 0 8 (by decide), himm,
    BitVec.extractLsb'_append_eq_left]

/-- Every word is its opcode, regA and low byte packed again (R51). -/
theorem packWord_decodeFields (w : Word) :
    packWord (Opcode.ofBits (decodeFields w).opcode) (decodeFields w).regA (decodeFields w).imm = w := by
  rw [packWord, Opcode.bits_ofBits]
  simp only [decodeFields]
  rw [BitVec.extractLsb'_append_extractLsb'_eq_extractLsb' (start₂ := 8) (start₁ := 0) rfl,
    BitVec.extractLsb'_append_extractLsb'_eq_extractLsb' (start₂ := 12) (start₁ := 0) rfl]
  exact BitVec.extractLsb'_eq_self

theorem packWord_inj {op : Opcode} {a a' : RegField} {low low' : BitVec 8} :
    packWord op a low = packWord op a' low' ↔ a = a' ∧ low = low' := by
  refine ⟨fun h => ?_, fun ⟨ha, hl⟩ => ha ▸ hl ▸ rfl⟩
  have hf := congrArg decodeFields h
  simp only [decodeFields_packWord, Fields.mk.injEq] at hf
  exact ⟨hf.2.1, hf.2.2.2⟩

@[simp] theorem regBByte_high (b : RegField) : (regBByte b).extractLsb' 4 4 = b :=
  BitVec.extractLsb'_append_eq_left

/-- A low byte is the one of form `RR` exactly when its low nibble is zero. -/
theorem regBByte_eq_iff (low : BitVec 8) :
    regBByte (low.extractLsb' 4 4) = low ↔ low.extractLsb' 0 4 = 0 := by
  constructor
  · intro h
    rw [← h]
    exact BitVec.extractLsb'_append_eq_right
  · intro h
    have := BitVec.extractLsb'_append_extractLsb'_eq_extractLsb' (x := low) (start₂ := 4) (start₁ := 0)
      (len₁ := 4) (len₂ := 4) rfl
    simpa [regBByte, h] using this

theorem decodeFields_toNat (w : Word) :
    (decodeFields w).opcode.toNat = w.toNat / 4096 % 16 ∧ (decodeFields w).regA.toNat = w.toNat / 256 % 16 ∧
      (decodeFields w).regB.toNat = w.toNat / 16 % 16 ∧ (decodeFields w).imm.toNat = w.toNat % 256 := by
  simp [decodeFields, BitVec.extractLsb'_toNat, Nat.shiftRight_eq_div_pow]

/-- Settles O19: the arithmetic by `decodeFields_toNat`, the worked example by evaluation. -/
theorem fieldsAreCutFromTheWord : Obligations.FieldsAreCutFromTheWord :=
  ⟨decodeFields_toNat, by decide, by decide⟩

/-- Settles O23, by evaluating the decoder on the six words. -/
theorem sampleWordsDecode : Obligations.SampleWordsDecode := by
  unfold Obligations.SampleWordsDecode
  decide

/-! ### Decoding an encoded instruction -/

theorem decode_eq_ok_iff {w : Word} {i : Instr} :
    decode w = .ok i ↔ (decodeFields w).instr = i ∧ WellFormed i := by
  unfold decode
  cases hf : regFault (decodeFields w) with
  | true =>
    simp only [if_true, reduceCtorEq, false_iff]
    rintro ⟨rfl, hw⟩
    rw [← regFault_eq_false_iff, hf] at hw
    cases hw
  | false =>
    simp only [Bool.false_eq_true, if_false, Except.ok.injEq]
    exact ⟨fun h => ⟨h, h ▸ (regFault_eq_false_iff _).mp hf⟩, And.left⟩

/-- The fields of an encoded instruction, read by its form, are the instruction, well-formed or not. -/
@[simp] theorem instr_decodeFields_encode (i : Instr) : (decodeFields (encode i)).instr = i := by
  cases i <;> simp [encode, Fields.instr, Opcode.instr]

theorem decode_encode {i : Instr} (h : WellFormed i) : decode (encode i) = .ok i :=
  decode_eq_ok_iff.mpr ⟨instr_decodeFields_encode i, h⟩

/-- A word is canonical when its instruction is well-formed and encodes back to it: the unused bits are 0. -/
theorem isCanonical_iff (w : Word) :
    isCanonical w = true ↔ WellFormed (decodeFields w).instr ∧ encode (decodeFields w).instr = w := by
  obtain ⟨op, a, low, rfl⟩ : ∃ op a low, w = packWord op a low := ⟨_, _, _, (packWord_decodeFields w).symm⟩
  unfold isCanonical Fields.instr
  rw [decodeFields_packWord]
  cases op with
  | load | store | li | jz | jnz =>
    simp [Opcode.form, Opcode.instr, WellFormed, Instr.regFields, encode]
  | add | sub | and | or | xor | mov =>
    simp [Opcode.form, Opcode.instr, WellFormed, Instr.regFields, encode, packWord_inj, regBByte_eq_iff]
  | inc | dec | out | jmp | hlt =>
    simp [Opcode.form, Opcode.instr, WellFormed, Instr.regFields, encode, packWord_inj, eq_comm (a := a),
      eq_comm (a := low)]

theorem isCanonical_encode {i : Instr} (h : WellFormed i) : isCanonical (encode i) = true := by
  rw [isCanonical_iff, instr_decodeFields_encode]
  exact ⟨h, rfl⟩

theorem step_of_fetchWord {s : State} {w : Word} {i : Instr} (hc : s.canStep = true)
    (hw : s.fetchWord = some w) (hi : decode w = .ok i) : step s = exec i s :=
  step_of_fetchDecode hc (fetchDecode_ok.mpr ⟨w, hw, hi⟩)

/-- Settles O18: encoding and decoding meet in the instruction of the fields. -/
theorem decoderAndEncoderAgree : Obligations.DecoderAndEncoderAgree := by
  refine ⟨fun i => decode_encode, fun w hw => ?canonical, fun w hf => ?faultFree⟩
  case canonical =>
    obtain ⟨hwf, henc⟩ := (isCanonical_iff w).mp hw
    exact ⟨_, decode_eq_ok_iff.mpr ⟨rfl, hwf⟩, henc⟩
  case faultFree =>
    have hwf : WellFormed (decodeFields w).instr := (regFault_eq_false_iff _).mp hf
    have hdec : decode w = .ok (decodeFields w).instr := decode_eq_ok_iff.mpr ⟨rfl, hwf⟩
    exact ⟨_, hdec, isCanonical_encode hwf, fun s t hs ht hsw htw =>
      ⟨step_of_fetchWord hs hsw hdec, step_of_fetchWord ht htw (decode_encode hwf)⟩⟩

/-! ### The encoder's arithmetic -/

theorem toNat_append_eq_add {m n : Nat} (x : BitVec m) (y : BitVec n) :
    (x ++ y).toNat = x.toNat * 2 ^ n + y.toNat := by
  rw [BitVec.toNat_append, ← Nat.shiftLeft_add_eq_or_of_lt y.isLt, Nat.shiftLeft_eq]

theorem packWord_toNat (op : Opcode) (a : RegField) (low : BitVec 8) :
    (packWord op a low).toNat = op.bits.toNat * 4096 + a.toNat * 256 + low.toNat := by
  simp only [packWord, toNat_append_eq_add]
  omega

theorem regBByte_toNat (b : RegField) : (regBByte b).toNat = b.toNat * 16 := by
  rw [regBByte, toNat_append_eq_add]
  rfl

theorem setWidth_append_eq_or (k : Nat) {m n : Nat} (x : BitVec m) (y : BitVec n) :
    (x ++ y).setWidth k = x.setWidth k <<< n ||| y.setWidth k := by
  ext i hi
  by_cases hn : i < n
  · simp [BitVec.getLsbD_append, hn]
  · simp [BitVec.getLsbD_append, hn, BitVec.getLsbD_of_ge y i (Nat.not_lt.mp hn)]

theorem packWord_eq_or (op : Opcode) (a : RegField) (low : BitVec 8) :
    packWord op a low = op.bits.setWidth 16 <<< 12 ||| a.setWidth 16 <<< 8 ||| low.setWidth 16 := by
  calc packWord op a low
    _ = (op.bits ++ (a ++ low)).setWidth 16 := (BitVec.setWidth_eq _).symm
    _ = _ := by
      rw [setWidth_append_eq_or, setWidth_append_eq_or, BitVec.or_assoc]

theorem regBByte_setWidth (b : RegField) : (regBByte b).setWidth 16 = b.setWidth 16 <<< 4 := by
  rw [regBByte, setWidth_append_eq_or]
  simp

theorem canonicalFields_opcode (i : Instr) : (canonicalFields i).opcode = i.opcode.bits := by cases i <;> rfl

/-- No instruction has both a regB and an immediate (R54). -/
theorem canonicalFields_regB_or_imm (i : Instr) : (canonicalFields i).regB = 0 ∨ (canonicalFields i).imm = 0 := by
  cases i with
  | add | sub | and | or | xor | mov | inc | dec | out | hlt => exact .inr rfl
  | load | store | li | jmp | jz | jnz => exact .inl rfl

/-- One formula for all sixteen instructions: the low byte is regB's byte or the immediate. -/
theorem encode_eq_packWord (i : Instr) :
    encode i =
      packWord i.opcode (canonicalFields i).regA (regBByte (canonicalFields i).regB ||| (canonicalFields i).imm) := by
  cases i <;> simp [encode, Instr.opcode, canonicalFields, regBByte]

theorem encode_toNat (i : Instr) :
    (encode i).toNat = (canonicalFields i).opcode.toNat * 4096 + (canonicalFields i).regA.toNat * 256 +
      (canonicalFields i).regB.toNat * 16 + (canonicalFields i).imm.toNat := by
  have hlow : (regBByte (canonicalFields i).regB ||| (canonicalFields i).imm).toNat =
      (canonicalFields i).regB.toNat * 16 + (canonicalFields i).imm.toNat := by
    rcases canonicalFields_regB_or_imm i with h | h <;> simp [h, regBByte_toNat]
  rw [encode_eq_packWord, packWord_toNat, hlow, canonicalFields_opcode, Nat.add_assoc _ (_ * 16)]

theorem encode_eq_or (i : Instr) :
    encode i = ((canonicalFields i).opcode.setWidth 16 <<< 12 ||| (canonicalFields i).regA.setWidth 16 <<< 8 |||
      (canonicalFields i).regB.setWidth 16 <<< 4 ||| (canonicalFields i).imm.setWidth 16) := by
  rw [encode_eq_packWord, packWord_eq_or, BitVec.setWidth_or, regBByte_setWidth, canonicalFields_opcode,
    BitVec.or_assoc (_ ||| _)]

/-- Settles O20, by `encode_toNat`, `encode_eq_or` and the round trip. -/
theorem encoderPacksCanonicalFields : Obligations.EncoderPacksCanonicalFields := by
  refine ⟨fun i hi => ⟨encode_toNat i, encode_eq_or i, canonicalFields_regB_or_imm i, decode_encode hi⟩,
    by decide, fun w => ⟨fun hw => ⟨_, (isCanonical_iff w).mp hw⟩, ?_⟩⟩
  rintro ⟨i, hi, rfl⟩
  exact isCanonical_encode hi

/-! ### Used and unused fields -/

theorem regFault_iff (f : Fields) :
    regFault f = true ↔
      (((Opcode.ofBits f.opcode).form = .RI ∨ (Opcode.ofBits f.opcode).form = .RR ∨
          (Opcode.ofBits f.opcode).form = .R) ∧ 8 ≤ f.regA.toNat) ∨
        ((Opcode.ofBits f.opcode).form = .RR ∧ 8 ≤ f.regB.toNat) := by
  unfold regFault
  cases (Opcode.ofBits f.opcode).form <;> simp

/-- Settles O21: `regFault_iff` with the fields' arithmetic is the obligation's condition. -/
theorem usedRegisterFieldsDecideTheFault : Obligations.UsedRegisterFieldsDecideTheFault := by
  intro s w hc hw
  obtain ⟨hO, hA, hB, -⟩ := decodeFields_toNat w
  have hop : BitVec.ofNat 4 (w.toNat / 4096) = (decodeFields w).opcode :=
    BitVec.eq_of_toNat_eq (by rw [BitVec.toNat_ofNat, hO])
  simp only [hop, ← hA, ← hB, ← regFault_iff]
  rcases fetchDecode_cases s with ⟨hle, -⟩ | ⟨v, hv, hf, hfault⟩ | ⟨v, hv, hf, hok⟩
  · exact absurd hle (Nat.not_le.mpr (State.canStep_iff.mp hc).2)
  · obtain rfl : v = w := Option.some.inj (hv.symm.trans hw)
    rw [if_pos hf]
    exact step_of_fetchFault hc hfault
  · obtain rfl : v = w := Option.some.inj (hv.symm.trans hw)
    have hwf := (regFault_eq_false_iff _).mp hf
    rw [if_neg (by simp [hf])]
    exact ⟨_, decode_eq_ok_iff.mpr ⟨rfl, hwf⟩, hwf, step_of_fetchDecode hc hok⟩

/-- An opcode's instruction depends on the operands that its control signals use, and on no other. -/
theorem Opcode.instr_congr {op : Opcode} {a a' b b' : RegField} {imm imm' : Imm}
    (ha : op.signals.useA = true → a = a') (hb : op.signals.useB = true → b = b')
    (himm : op.signals.useImm = true → imm = imm') : op.instr a b imm = op.instr a' b' imm' := by
  cases op with
  | load | store | li | jz | jnz => rw [ha rfl, himm rfl]; rfl
  | add | sub | and | or | xor | mov => rw [ha rfl, hb rfl]; rfl
  | inc | dec | out => rw [ha rfl]; rfl
  | jmp => rw [himm rfl]; rfl
  | hlt => rfl

theorem instr_eq_of_sameUsedFields {w v : Word} (h : SameUsedFields w v) :
    (decodeFields w).instr = (decodeFields v).instr := by
  obtain ⟨hop, ha, hb, himm⟩ := h
  rw [Fields.instr, Fields.instr, ← hop]
  exact Opcode.instr_congr ha hb himm

/-- Settles O22: the decoder answers by the instruction of the fields alone. -/
theorem unusedBitsAreIgnored : Obligations.UnusedBitsAreIgnored := by
  refine ⟨fun w v h i => ?_, by decide⟩
  rw [decode_eq_ok_iff, decode_eq_ok_iff, instr_eq_of_sameUsedFields h]

end Sys2Proof.Machine
end

section
/-! Proofs for 30_encoding.md section 2: the words and the labels of the assembler (R68, R77). -/

namespace Sys2Proof.Assembler

open Sys2Proof.Machine

/-! ### Parsed instructions are well-formed -/

theorem parseRegister_lt {tok : List Char} {r : RegField} (h : parseRegister tok = .ok r) : r.toNat < 8 := by
  unfold parseRegister at h
  split at h
  · split at h
    · split at h
      · split at h
        · next n _ hn =>
          cases h
          rw [BitVec.toNat_ofNat]
          omega
        · cases h
      · cases h
    · cases h
  · cases h

/-- Whatever the form, an instruction made of register operands below 8 is well-formed. -/
theorem wellFormed_opcodeInstr (op : Opcode) {a b : RegField} (imm : Imm) (ha : a.toNat < 8) (hb : b.toNat < 8) :
    WellFormed (op.instr a b imm) := by
  cases op <;> simp [Opcode.instr, WellFormed, Instr.regFields, ha, hb]

theorem except_bind_ok {ε α β : Type} {x : Except ε α} {f : α → Except ε β} {b : β} (h : x >>= f = .ok b) :
    ∃ a, x = .ok a ∧ f a = .ok b := by
  cases x with
  | error e => cases h
  | ok a => exact ⟨a, rfl, h⟩

/-- An accepted operand list gives the opcode's instruction, each register operand parsed or left 0 (R72). -/
theorem parseOperands_ok {t : SymTab} {op : Opcode} {ops : List (List Char)} {i : Instr}
    (h : parseOperands t op ops = .ok i) :
    ∃ a b imm, i = op.instr a b imm ∧ a.toNat < 8 ∧ b.toNat < 8 := by
  have hzero : (0 : RegField).toNat < 8 := by decide
  unfold parseOperands at h
  split at h
  · obtain ⟨a, ha, h⟩ := except_bind_ok h
    obtain ⟨imm, -, h⟩ := except_bind_ok h
    cases h
    exact ⟨a, 0, imm, rfl, parseRegister_lt ha, hzero⟩
  · obtain ⟨a, ha, h⟩ := except_bind_ok h
    obtain ⟨b, hb, h⟩ := except_bind_ok h
    cases h
    exact ⟨a, b, 0, rfl, parseRegister_lt ha, parseRegister_lt hb⟩
  · obtain ⟨a, ha, h⟩ := except_bind_ok h
    cases h
    exact ⟨a, 0, 0, rfl, parseRegister_lt ha, hzero⟩
  · obtain ⟨imm, -, h⟩ := except_bind_ok h
    cases h
    exact ⟨0, 0, imm, rfl, hzero, hzero⟩
  · cases h
    exact ⟨0, 0, 0, rfl, hzero, hzero⟩
  · cases h

theorem parseBody_wellFormed {t : SymTab} {body : List Char} {i : Instr} (h : parseBody t body = .ok i) :
    WellFormed i := by
  unfold parseBody at h
  split at h
  · cases h
  · split at h
    · cases h
    · obtain ⟨a, b, imm, rfl, ha, hb⟩ := parseOperands_ok h
      exact wellFormed_opcodeInstr _ imm ha hb

/-! ### The word of a line -/

theorem lineWord_of_not_takesSlot {t : SymTab} {l : Line} (h : takesSlot l = false) : lineWord t l = none := by
  have hbody : l.body.isEmpty = true := by simpa [takesSlot] using h
  simp [lineWord, parseLine, hbody]

theorem parseLine_of_takesSlot {t : SymTab} {l : Line} (h : takesSlot l = true) :
    parseLine t l = some (parseBody t l.body) := by
  have hbody : l.body.isEmpty = false := by simpa [takesSlot] using h
  simp [parseLine, hbody]

theorem lineWord_eq_some {t : SymTab} {l : Line} {w : Word} (h : lineWord t l = some w) :
    ∃ i, parseBody t l.body = .ok i ∧ encode i = w := by
  cases hs : takesSlot l with
  | false => rw [lineWord_of_not_takesSlot hs] at h; cases h
  | true =>
    rw [lineWord, parseLine_of_takesSlot hs] at h
    cases hp : parseBody t l.body with
    | error c => rw [hp] at h; cases h
    | ok i => rw [hp] at h; exact ⟨i, rfl, Option.some.inj h⟩

theorem assemble_words (source : List Char) :
    (assemble source).words = (linesOf source).filterMap (lineWord (passOne (linesOf source) 0 [])) := rfl

/-- Settles O47: an emitted word encodes a parsed instruction, and parsing accepts registers 0 to 7 only. -/
theorem assembledWordsAreCanonical : Obligations.AssembledWordsAreCanonical := by
  intro source w hw
  rw [assemble_words, List.mem_filterMap] at hw
  obtain ⟨l, -, hl⟩ := hw
  obtain ⟨i, hi, rfl⟩ := lineWord_eq_some hl
  have hwf := parseBody_wellFormed hi
  refine ⟨isCanonical_encode hwf, (regFault_eq_false_iff _).mpr ?_⟩
  rwa [instr_decodeFields_encode]

/-! ### One word for each body -/

@[simp] theorem labelCauses_length (ls : List Line) (addr : Nat) (t : SymTab) :
    (labelCauses ls addr t).length = ls.length := by
  induction ls generalizing addr t with
  | nil => rfl
  | cons l rest ih => simp [labelCauses, ih]

/-- Without diagnostics every line's own diagnostics are empty. -/
theorem lineDiagnostics_of_collect_nil {t : SymTab} {ls : List Line} {cs : List (Option DiagnosticCause)}
    (hlen : cs.length = ls.length) (h : collectDiagnostics t ls cs = []) :
    ∀ l ∈ ls, ∃ c, lineDiagnostics t l c = [] := by
  induction ls generalizing cs with
  | nil => simp
  | cons l rest ih =>
    cases cs with
    | nil => cases hlen
    | cons c cs =>
      obtain ⟨hl, hrest⟩ := List.append_eq_nil_iff.mp h
      intro m hm
      rcases List.mem_cons.mp hm with rfl | hm
      · exact ⟨c, hl⟩
      · exact ih (Nat.succ.inj hlen) hrest m hm

/-- A line that draws no diagnostic emits a word exactly when it has a body. -/
theorem lineWord_isSome_iff {t : SymTab} {l : Line} {c : Option DiagnosticCause}
    (h : lineDiagnostics t l c = []) : (lineWord t l).isSome = true ↔ takesSlot l = true := by
  cases hs : takesSlot l with
  | false => simp [lineWord_of_not_takesSlot hs]
  | true =>
    have hp := parseLine_of_takesSlot (t := t) hs
    cases hb : parseBody t l.body with
    | error e => simp [lineDiagnostics, hp, hb] at h
    | ok i => simp [lineWord, hp, hb]

theorem words_length_of_no_diagnostics {source : List Char} (h : (assemble source).diagnostics = []) :
    (assemble source).words.length = ((linesOf source).filter takesSlot).length := by
  rw [assemble_words, List.length_filterMap_eq_countP, ← List.countP_eq_length_filter]
  refine List.countP_congr fun l hl => ?_
  obtain ⟨c, hc⟩ := lineDiagnostics_of_collect_nil (labelCauses_length _ 0 []) h l hl
  exact lineWord_isSome_iff hc

/-! ### Only the contents of lines count -/

/-- A line with the given label and body and nothing else. -/
def bareLine (content : Option (List Char) × List Char) : Line :=
  { number := 0, raw := [], label := content.1, body := content.2 }

/-- The lines of a text with comments, blank lines and line numbers set aside. -/
def bareLines (ls : List Line) : List Line :=
  ((ls.filter fun l => !isBlankLine l).map fun l => (l.label, l.body)).map bareLine

theorem bareLines_cons_of_blank {l : Line} (ls : List Line) (h : isBlankLine l = true) :
    bareLines (l :: ls) = bareLines ls := by
  simp [bareLines, h]

theorem bareLines_cons_of_not_blank {l : Line} (ls : List Line) (h : isBlankLine l = false) :
    bareLines (l :: ls) = bareLine (l.label, l.body) :: bareLines ls := by
  simp [bareLines, h]

theorem isBlankLine_iff {l : Line} : isBlankLine l = true ↔ l.label = none ∧ l.body = [] := by
  simp [isBlankLine]

/-- Pass 1 sees labels and bodies only. -/
theorem passOne_bareLines (ls : List Line) (addr : Nat) (t : SymTab) :
    passOne (bareLines ls) addr t = passOne ls addr t := by
  induction ls generalizing addr t with
  | nil => rfl
  | cons l rest ih =>
    cases hb : isBlankLine l with
    | true =>
      obtain ⟨hlabel, hbody⟩ := isBlankLine_iff.mp hb
      rw [bareLines_cons_of_blank rest hb, ih]
      simp [passOne, nextAddress, bindLabel, hlabel, hbody]
    | false =>
      rw [bareLines_cons_of_not_blank rest hb]
      exact ih _ _

/-- Pass 2 sees bodies only. -/
theorem filterMap_lineWord_bareLines (t : SymTab) (ls : List Line) :
    (bareLines ls).filterMap (lineWord t) = ls.filterMap (lineWord t) := by
  induction ls with
  | nil => rfl
  | cons l rest ih =>
    cases hb : isBlankLine l with
    | true =>
      have hword : lineWord t l = none :=
        lineWord_of_not_takesSlot (by simp [takesSlot, (isBlankLine_iff.mp hb).2])
      rw [bareLines_cons_of_blank rest hb, ih, List.filterMap_cons_none hword]
    | false =>
      have hword : lineWord t (bareLine (l.label, l.body)) = lineWord t l := rfl
      rw [bareLines_cons_of_not_blank rest hb, List.filterMap_cons, List.filterMap_cons, hword, ih]

/-- Settles O48: both passes give on a text what they give on its bare lines. -/
theorem oneWordForEachInstructionLine : Obligations.OneWordForEachInstructionLine := by
  refine ⟨fun source => words_length_of_no_diagnostics, fun source other h => ?_⟩
  have hbare : bareLines (linesOf source) = bareLines (linesOf other) := congrArg (List.map bareLine) h
  have htable : passOne (linesOf source) 0 [] = passOne (linesOf other) 0 [] := by
    rw [← passOne_bareLines (linesOf source), hbare, passOne_bareLines]
  refine ⟨htable, ?_⟩
  rw [assemble_words, assemble_words, htable, ← filterMap_lineWord_bareLines _ (linesOf source), hbare,
    filterMap_lineWord_bareLines]

/-! ### The address of a label -/

theorem SymTab.find_append (t u : SymTab) (name : List Char) :
    SymTab.find (t ++ u) name = (t.find name).or (u.find name) := by
  induction t with
  | nil => rfl
  | cons e rest ih =>
    by_cases h : e.1 = name
    · simp [SymTab.find, h]
    · simpa [SymTab.find, h] using ih

/-- The address of the first line that declares the name, the lines beginning at `addr`. -/
def declaredAddress (name : List Char) : List Line → Nat → Option Nat
  | [], _ => none
  | l :: rest, addr =>
    if l.label = some name then some addr else declaredAddress name rest (nextAddress addr l)

theorem bindLabel_of_declares {l : Line} {declared : List Char} (h : l.label = some declared) (t : SymTab)
    (addr : Nat) :
    bindLabel t addr l = if (labelCause t l).isNone then t ++ [(declared, addr)] else t := by
  simp [bindLabel, h]

/-- The label of a valid name draws a diagnostic exactly when the name is bound already (R79, R80). -/
theorem labelCause_isNone_of_valid {l : Line} {name : List Char} (h : l.label = some name)
    (hv : validLabel name = true) (t : SymTab) : (labelCause t l).isNone = (t.find name).isNone := by
  cases hf : t.find name <;> simp [labelCause, h, hv, hf]

/-- A line binds the name it declares unless the name is bound already, and no other name. -/
theorem find_bindLabel {name : List Char} (hv : validLabel name = true) (t : SymTab) (addr : Nat) (l : Line) :
    (bindLabel t addr l).find name = (t.find name).or (if l.label = some name then some addr else none) := by
  cases hl : l.label with
  | none => simp [bindLabel, hl]
  | some declared =>
    rw [bindLabel_of_declares hl]
    by_cases hn : declared = name
    · subst hn
      rw [labelCause_isNone_of_valid hl hv]
      cases hf : t.find declared <;> simp [hf, SymTab.find_append, SymTab.find]
    · split <;> simp [SymTab.find_append, SymTab.find, hn]

/-- Pass 1 binds a name to its first declaration, after what the table held before. -/
theorem find_passOne {name : List Char} (hv : validLabel name = true) (ls : List Line) (addr : Nat) (t : SymTab) :
    (passOne ls addr t).find name = (t.find name).or (declaredAddress name ls addr) := by
  induction ls generalizing addr t with
  | nil => simp [passOne, declaredAddress]
  | cons l rest ih =>
    rw [passOne, ih, find_bindLabel hv, Option.or_assoc, declaredAddress]
    split <;> rfl

theorem nextAddress_eq (addr : Nat) (l : Line) : nextAddress addr l = addr + ([l].filter takesSlot).length := by
  cases hb : l.body.isEmpty <;> simp [nextAddress, takesSlot, hb]

/-- The address after some lines without a declaration counts their bodies (R68). -/
theorem declaredAddress_append {name : List Char} {before : List Line} (h : ∀ m ∈ before, m.label ≠ some name)
    (ls : List Line) (addr : Nat) :
    declaredAddress name (before ++ ls) addr = declaredAddress name ls (addr + (before.filter takesSlot).length) := by
  induction before generalizing addr with
  | nil => rfl
  | cons m rest ih =>
    obtain ⟨hm, hrest⟩ := List.forall_mem_cons.mp h
    rw [List.cons_append, declaredAddress, if_neg hm, ih hrest, nextAddress_eq, Nat.add_assoc,
      ← List.length_append, ← List.filter_append, List.singleton_append]

/-- Either no line declares the name, or there is a first one that does. -/
theorem exists_first_declaration (name : List Char) (ls : List Line) :
    (∀ m ∈ ls, m.label ≠ some name) ∨
      ∃ before l rest, ls = before ++ l :: rest ∧ l.label = some name ∧ ∀ m ∈ before, m.label ≠ some name := by
  cases hf : ls.find? fun m => m.label == some name with
  | none => exact .inl (by simpa using hf)
  | some l =>
    obtain ⟨hl, before, rest, hls, hbefore⟩ := List.find?_eq_some_iff_append.mp hf
    exact .inr ⟨before, l, rest, hls, by simpa using hl, by simpa using hbefore⟩

theorem declaredAddress_eq_some_iff {name : List Char} {ls : List Line} {a : Nat} :
    declaredAddress name ls 0 = some a ↔ ∃ before l rest, ls = before ++ l :: rest ∧ l.label = some name ∧
      (∀ m ∈ before, m.label ≠ some name) ∧ a = (before.filter takesSlot).length := by
  have hfirst (before rest : List Line) (l : Line) (hl : l.label = some name)
      (h : ∀ m ∈ before, m.label ≠ some name) :
      declaredAddress name (before ++ l :: rest) 0 = some (before.filter takesSlot).length := by
    rw [declaredAddress_append h, declaredAddress, if_pos hl, Nat.zero_add]
  constructor
  · intro ha
    rcases exists_first_declaration name ls with hnone | ⟨before, l, rest, rfl, hl, hbefore⟩
    · rw [← List.append_nil ls, declaredAddress_append hnone] at ha
      cases ha
    · rw [hfirst before rest l hl hbefore] at ha
      exact ⟨before, l, rest, rfl, hl, hbefore, (Option.some.inj ha).symm⟩
  · rintro ⟨before, l, rest, rfl, hl, hbefore, rfl⟩
    exact hfirst before rest l hl hbefore

/-- Settles O49: pass 1 from the empty table finds the first declaration, whose address counts bodies. -/
theorem labelAddressCountsTheBodiesBefore : Obligations.LabelAddressCountsTheBodiesBefore := by
  intro ls name a hv
  rw [find_passOne hv]
  exact declaredAddress_eq_some_iff

end Sys2Proof.Assembler
end

section
/-! Proofs for 40_step_cycle.md: the guard and the dispatch of one step, the sequencer's transitions, register 0,
and the run loop (R90 to R102). -/

namespace Sys2Proof.Machine

/-! ### The guard and the decoded instruction -/

/-- Settles O24, by the fetch inside memory and the decoder's iff. -/
theorem stepRunsTheDecodedInstruction : Obligations.StepRunsTheDecodedInstruction := by
  rintro s w i hrun hpc rfl hdec
  have hc : s.canStep = true := State.canStep_iff.mpr ⟨hrun, hpc⟩
  obtain ⟨rfl, hwf⟩ := decode_eq_ok_iff.mp hdec
  exact ⟨hwf, step_of_fetchWord hc (State.fetchWord_of_canStep hc) hdec⟩

/-- Settles O25, by the two values of the guard. -/
theorem guardStopsWithoutChange : Obligations.GuardStopsWithoutChange := by
  refine ⟨fun s hstop => ?stopped, fun s hrun hpc => ?running⟩
  case stopped =>
    have hc : s.canStep = false := State.canStep_eq_false_iff.mpr hstop
    have ho : stepOutcome s = .stop s := stepOutcome_of_not_canStep hc
    exact ⟨step_of_not_canStep hc, ho, by simp [stepReturns, ho]⟩
  case running =>
    have hc : s.canStep = true := State.canStep_iff.mpr ⟨hrun, hpc⟩
    exact ⟨hc, State.fetchWord_of_canStep hc⟩

/-! ### Running and Halted -/

/-- HLT is the only instruction that a running core halts by: every other one keeps the flag (R97). -/
theorem fetchDecode_of_stepOutcome_halt {s t : State} (h : stepOutcome s = .halt t) : fetchDecode s = .ok .hlt := by
  obtain ⟨hc, hs, ht⟩ := stepOutcome_halt h
  rcases step_next hs with ⟨hstop, -⟩ | ⟨-, i, hi, he⟩
  · simp [hc] at hstop
  · by_cases hne : i = .hlt
    · exact hne ▸ hi
    · obtain ⟨-, hkept, -⟩ := exec_counted hne he
      obtain ⟨hrun, -⟩ := State.canStep_iff.mp hc
      simp [ht, hrun] at hkept

/-- Settles O27, one transition of the sequencer after the other. -/
theorem runningAndHaltedTransitions : Obligations.RunningAndHaltedTransitions := by
  intro s
  refine ⟨fun t h => ?next, fun t h => ?halt, fun h => ?halted, hostReset_halted s, fun _ h => ?offTheEnd⟩
  case next =>
    obtain ⟨hc, -, ht⟩ := stepOutcome_next h
    exact ⟨(State.canStep_iff.mp hc).1, ht⟩
  case halt =>
    obtain ⟨hc, -, ht⟩ := stepOutcome_halt h
    exact ⟨(State.canStep_iff.mp hc).1, ht, fetchDecode_of_stepOutcome_halt h⟩
  case halted =>
    have hc : s.canStep = false := State.canStep_eq_false_iff.mpr (.inl h)
    exact ⟨stepOutcome_of_not_canStep hc, step_of_not_canStep hc⟩
  case offTheEnd => exact stepOutcome_of_not_canStep (State.canStep_eq_false_iff.mpr (.inr h))

/-! ### What register 0 held is forgotten by the forced zero -/

@[simp] theorem countedCycle_setReg_zero (s : State) (x : Word) (body : State → State) :
    countedCycle (s.setReg 0 x) body = countedCycle s body := by
  simp [countedCycle]

@[simp] theorem withReg_setReg_zero (i : Instr) (f : RegField) (s : State) (x : Word) (k : Reg → Result) :
    withReg i f (s.setReg 0 x) k = withReg i f s k := rfl

@[simp] theorem aluRR_setReg_zero (i : Instr) (f : Word → Word → Word) (rd rs : RegField) (s : State) (x : Word) :
    aluRR i f rd rs (s.setReg 0 x) = aluRR i f rd rs s := by
  simp [aluRR, withRegs]

@[simp] theorem aluR_setReg_zero (i : Instr) (f : Word → Word) (rd : RegField) (s : State) (x : Word) :
    aluR i f rd (s.setReg 0 x) = aluR i f rd s := by
  simp [aluR]

@[simp] theorem jumpWhen_setReg_zero (i : Instr) (test : Word → Bool) (rs : RegField) (addr : Imm) (s : State)
    (x : Word) : jumpWhen i test rs addr (s.setReg 0 x) = jumpWhen i test rs addr s := by
  simp [jumpWhen]

/-- R94: no instruction's answer, fault or next state, depends on what register 0 held. -/
theorem exec_setReg_zero (i : Instr) (s : State) (x : Word) : exec i (s.setReg 0 x) = exec i s := by
  cases i with
  | load _ _ => simp [exec, execLoad]
  | store _ _ => simp [exec, execStore]
  | add _ _ | sub _ _ | and _ _ | or _ _ | xor _ _ | mov _ _ => exact aluRR_setReg_zero _ _ _ _ s x
  | li _ _ => simp [exec, execLi]
  | jmp _ => simp [exec, execJmp]
  | jz _ _ | jnz _ _ => exact jumpWhen_setReg_zero _ _ _ _ s x
  | inc _ | dec _ => exact aluR_setReg_zero _ _ _ s x
  | out _ => simp [exec, execOut]
  | hlt => simp [exec, execHlt, haltingCycle]

/-- Guard, fetch and decode read no register. -/
theorem fetchDecode_setReg (s : State) (r : Reg) (x : Word) : fetchDecode (s.setReg r x) = fetchDecode s := rfl

theorem State.canStep_setReg (s : State) (r : Reg) (x : Word) : (s.setReg r x).canStep = s.canStep := rfl

theorem step_setReg_zero {s : State} (h : s.canStep = true) (x : Word) : step (s.setReg 0 x) = step s := by
  have hx : (s.setReg 0 x).canStep = true := h
  cases hf : fetchDecode s with
  | ok i => rw [step_of_fetchDecode h hf, step_of_fetchDecode hx hf, exec_setReg_zero]
  | error r => rw [step_of_fetchFault h hf, step_of_fetchFault hx hf]

theorem stepOutcome_setReg_zero {s : State} (h : s.canStep = true) (x : Word) :
    stepOutcome (s.setReg 0 x) = stepOutcome s := by
  simp [stepOutcome, State.canStep_setReg, step_setReg_zero h, h]

/-- Settles O35: both cores take the same step, to the same state, and run on from there. -/
theorem oldRegisterZeroIsInvisible : Obligations.OldRegisterZeroIsInvisible := by
  refine fun s x hc => ⟨step_setReg_zero hc x, fun t n ho => ?_⟩
  have hox : stepOutcome (s.setReg 0 x) = .next t := (stepOutcome_setReg_zero hc x).trans ho
  rw [run_succ_next n ho, run_succ_next n hox]

/-! ### The register forms on valid registers -/

@[simp] theorem State.operand_zero (s : State) : s.operand 0 = 0 := if_pos rfl

/-- Form `RR` leaves in its destination the function of the two operands. -/
theorem aluRR_writes {f : Word → Word → Word} {s : State} {v : Word} (i : Instr) (d r : Reg)
    (h : f (s.operand d) (s.operand r) = v) : ∃ t, aluRR i f d.field r.field s = .next t ∧ t.reg d = v :=
  ⟨_, withRegs_field i d r s _, by simp [h]⟩

/-- Form `R` leaves in its register the function of the operand. -/
theorem aluR_writes {f : Word → Word} {s : State} {v : Word} (i : Instr) (d : Reg) (h : f (s.operand d) = v) :
    ∃ t, aluR i f d.field s = .next t ∧ t.reg d = v :=
  ⟨_, withReg_field i d s _, by simp [h]⟩

/-- A conditional jump goes to its target or to the following cell, as the test of its operand says. -/
theorem jumpWhen_jumps {s : State} {test : Word → Bool} {b : Bool} (i : Instr) (r : Reg) (addr : Imm)
    (h : test (s.operand r) = b) :
    ∃ t, jumpWhen i test r.field addr s = .next t ∧ t.pc = if b then addr.toNat else s.pc + 1 :=
  ⟨_, withReg_field i r s _, by cases b <;> simp [h, immTarget]⟩

theorem execLi_writes (d : Reg) (v : Imm) (s : State) :
    ∃ t, execLi d.field v s = .next t ∧ t.reg d = BitVec.ofNat 16 v.toNat :=
  ⟨_, withReg_field _ d s _, by simp [immData]⟩

theorem execLoad_writes (d : Reg) {a : Imm} {s : State} (h : immAddress a < s.memSize) :
    ∃ t, execLoad d.field a s = .next t ∧ t.reg d = s.mem.read (immAddress a) :=
  ⟨_, execLoad_of_lt d h, by simp [immAddress]⟩

theorem execStore_reads_back (r : Reg) {a : Imm} {s : State} (h : immAddress a < s.memSize) (hm : s.mem.wf) :
    ∃ t, execStore r.field a s = .next t ∧ t.mem.read (immAddress a) = s.operand r :=
  ⟨_, execStore_of_lt r h, Memory.read_write_self hm _ _⟩

theorem execOut_emits (r : Reg) (s : State) :
    ∃ t, execOut r.field s = .next t ∧ t.out = s.out ++ [s.operand r] :=
  ⟨_, withReg_field _ r s _, by simp⟩

/-- Zero minus a word, by the remainder of the integer difference (R121). -/
theorem aluSub_zero_left (v : Word) : aluSub 0 v = BitVec.ofInt 16 ((0 - (v.toNat : Int)) % 65536) := by
  apply BitVec.eq_of_toNat_eq
  have hv : v.toNat < 65536 := v.isLt
  have hzero : (0 : Word).toNat = 0 := rfl
  simp only [aluSub, BitVec.toNat_sub, BitVec.toNat_ofInt, hzero]
  omega

/-- Settles O34: what register 0 held is forgotten, and each form is applied to the zero that it reads there. -/
theorem registerZeroReadsAsZero : Obligations.RegisterZeroReadsAsZero := by
  intro s r a v
  refine ⟨fun i x => exec_setReg_zero i s x, ?add, ?or, ?xor, ?sub, ?and, ?inc, ?dec, ?mov, execLi_writes 0 v s,
    execLoad_writes 0, execStore_reads_back 0, execOut_emits 0 s, ?jz, ?jnz, ?addB, ?subB, ?andB, ?orB, ?xorB, ?movB⟩
  case add => exact aluRR_writes (.add 0 r.field) 0 r (by simp [aluAdd])
  case or => exact aluRR_writes (.or 0 r.field) 0 r (by simp [aluOr])
  case xor => exact aluRR_writes (.xor 0 r.field) 0 r (by simp [aluXor])
  case sub => exact aluRR_writes (.sub 0 r.field) 0 r (by rw [State.operand_zero, aluSub_zero_left])
  case and => exact aluRR_writes (.and 0 r.field) 0 r (by simp [aluAnd])
  case inc => exact aluR_writes (.inc 0) 0 (by simp [aluInc])
  case dec => exact aluR_writes (.dec 0) 0 (by simp [aluDec])
  case mov => exact aluRR_writes (.mov 0 r.field) 0 r (by simp [aluPassB])
  case jz => exact jumpWhen_jumps (b := true) (.jz 0 a) 0 a (by simp [testZero])
  case jnz => exact jumpWhen_jumps (b := false) (.jnz 0 a) 0 a (by simp [testNonzero])
  case addB => exact aluRR_writes (.add r.field 0) r 0 (by simp [aluAdd])
  case subB => exact aluRR_writes (.sub r.field 0) r 0 (by simp [aluSub])
  case andB => exact aluRR_writes (.and r.field 0) r 0 (by simp [aluAnd])
  case orB => exact aluRR_writes (.or r.field 0) r 0 (by simp [aluOr])
  case xorB => exact aluRR_writes (.xor r.field 0) r 0 (by simp [aluXor])
  case movB => exact aluRR_writes (.mov r.field 0) r 0 (by simp [aluPassB])

/-! ### No step refuses -/

theorem withReg_ne_refused {i : Instr} {f : RegField} {s : State} {k : Reg → Result} {q : Refusal}
    (h : ∀ r, k r ≠ .refused q) : withReg i f s k ≠ .refused q := by
  rcases Reg.ofField_cases f with ⟨r, rfl, -⟩ | ⟨hf, -⟩
  · simpa using h r
  · simp [withReg_invalid i hf]

theorem countedCycle_ne_refused {s : State} {body : State → State} {q : Refusal} :
    countedCycle s body ≠ .refused q := nofun

/-- Every instruction has a meaning: it answers a next state or a fault, in every state (R8, R62). -/
theorem exec_ne_refused (i : Instr) (s : State) (q : Refusal) : exec i s ≠ .refused q := by
  cases i with
  | load _ addr =>
    refine withReg_ne_refused fun d => ?_
    split
    · exact countedCycle_ne_refused
    · nofun
  | store _ addr =>
    refine withReg_ne_refused fun r => ?_
    split <;> nofun
  | add _ _ | sub _ _ | and _ _ | or _ _ | xor _ _ | mov _ _ =>
    exact withReg_ne_refused fun _ => withReg_ne_refused fun _ => countedCycle_ne_refused
  | li _ _ | jz _ _ | jnz _ _ | inc _ | dec _ | out _ => exact withReg_ne_refused fun _ => countedCycle_ne_refused
  | jmp _ | hlt => nofun

theorem step_ne_refused (s : State) (q : Refusal) : step s ≠ .refused q := by
  cases hc : s.canStep with
  | false => simp [step_of_not_canStep hc]
  | true =>
    cases hf : fetchDecode s with
    | ok i => exact step_of_fetchDecode hc hf ▸ exec_ne_refused i s q
    | error r => simp [step_of_fetchFault hc hf]

/-! ### The run loop -/

/-- R101 as an inversion: a run with budget left goes on after a step that returned true, or it ends, whatever
the rest of its budget, in a core that has stopped or at a fault. -/
theorem run_succ_cases (s : State) :
    (∃ t, ∀ n, run (n + 1) s = (run n t).addStep) ∨
    (∃ t, t.canStep = false ∧ ∀ n, run (n + 1) s = ⟨t, 0, none⟩) ∨
    (∃ r, step s = .fault r ∧ ∀ n, run (n + 1) s = ⟨s, 0, some (.fault r)⟩) := by
  cases hc : s.canStep with
  | false => exact .inr (.inl ⟨s, hc, fun n => run_succ_stop n (stepOutcome_of_not_canStep hc)⟩)
  | true =>
    cases hs : step s with
    | next t =>
      cases ht : t.halted with
      | false =>
        have ho : stepOutcome s = .next t := by simp [stepOutcome, hc, hs, ht]
        exact .inl ⟨t, fun n => run_succ_next n ho⟩
      | true =>
        have ho : stepOutcome s = .halt t := by simp [stepOutcome, hc, hs, ht]
        exact .inr (.inl ⟨t, State.canStep_eq_false_iff.mpr (.inl ht), fun n => run_succ_halt n ho⟩)
    | fault r =>
      have ho : stepOutcome s = .fault r := by simp [stepOutcome, hc, hs]
      exact .inr (.inr ⟨r, rfl, fun n => run_succ_fault n ho⟩)
    | refused q => exact absurd hs (step_ne_refused s q)

/-- A run that used up its budget goes on as a run from where it left the core. -/
theorem run_add_of_count_eq {m : Nat} {s : State} (n : Nat) (h : (run m s).count = m) :
    run (m + n) s =
      ⟨(run n (run m s).state).state, m + (run n (run m s).state).count, (run n (run m s).state).abort⟩ := by
  induction m generalizing s with
  | zero => simp
  | succ m ih =>
    rcases run_succ_cases s with ⟨t, ht⟩ | ⟨t, -, ht⟩ | ⟨r, -, hr⟩
    · have hcount : (run m t).count = m := by simpa [ht] using h
      rw [Nat.succ_add, ht, ht, ih hcount]
      simp [RunResult.addStep, Nat.succ_add]
    · simp [ht] at h
    · simp [hr] at h

/-- A run that ended before its budget is the same run under a larger budget. -/
theorem run_add_of_count_lt {m : Nat} {s : State} (n : Nat) (h : (run m s).count < m) : run (m + n) s = run m s := by
  induction m generalizing s with
  | zero => simp at h
  | succ m ih =>
    rw [Nat.succ_add]
    rcases run_succ_cases s with ⟨t, ht⟩ | ⟨t, -, ht⟩ | ⟨r, -, hr⟩
    · have hcount : (run m t).count < m := by simpa [ht] using h
      rw [ht, ht, ih hcount]
    · rw [ht, ht]
    · rw [hr, hr]

/-- Settles O39, by the two inductions over the first budget. -/
theorem runsContinueWhereTheBudgetEnded : Obligations.RunsContinueWhereTheBudgetEnded :=
  fun _ n _ => ⟨run_add_of_count_eq n, run_add_of_count_lt n⟩

/-! ### How a run ends -/

/-- A run that was not aborted used up its budget, or left a core that can step no more. -/
theorem run_count_of_not_aborted {n : Nat} {s : State} (h : (run n s).abort = none) :
    (run n s).count = n ∨ (run n s).state.canStep = false := by
  induction n generalizing s with
  | zero => exact .inl rfl
  | succ n ih =>
    rcases run_succ_cases s with ⟨t, ht⟩ | ⟨t, hstop, ht⟩ | ⟨r, -, hr⟩
    · rw [ht] at h ⊢
      exact (ih h).imp_left (congrArg (· + 1))
    · exact .inr (ht n ▸ hstop)
    · simp [hr] at h

/-- An aborted run ended, within its budget, at a state whose own step is the fault (D21). -/
theorem run_fault_of_aborted {n : Nat} {s : State} {b : Abort} (h : (run n s).abort = some b) :
    ∃ r, b = .fault r ∧ step (run n s).state = .fault r ∧ (run n s).count < n := by
  induction n generalizing s with
  | zero => simp at h
  | succ n ih =>
    rcases run_succ_cases s with ⟨t, ht⟩ | ⟨t, -, ht⟩ | ⟨r, hs, hr⟩
    · rw [ht] at h ⊢
      obtain ⟨r, hb, hs, hcount⟩ := ih h
      exact ⟨r, hb, hs, Nat.succ_lt_succ hcount⟩
    · simp [ht] at h
    · rw [hr] at h ⊢
      exact ⟨r, (Option.some.inj h).symm, hs, Nat.succ_pos n⟩

/-- Settles O40, by the four branches of `RunResult.ending`. -/
theorem runsEndInOneOfFourWays : Obligations.RunsEndInOneOfFourWays := by
  intro n s
  cases ha : (run n s).abort with
  | some b =>
    have he : (run n s).ending = .aborted b := by simp [RunResult.ending, ha]
    rw [he]
    exact run_fault_of_aborted ha
  | none =>
    by_cases hh : (run n s).state.halted = true
    · have he : (run n s).ending = .halted := by simp [RunResult.ending, ha, hh]
      rw [he]
      exact hh
    · have hrun : (run n s).state.halted = false := eq_false_of_ne_true hh
      by_cases hp : (run n s).state.memSize ≤ (run n s).state.pc
      · have he : (run n s).ending = .offTheEnd := by simp [RunResult.ending, ha, hrun, hp]
        rw [he]
        exact ⟨hrun, hp⟩
      · have he : (run n s).ending = .budget := by simp [RunResult.ending, ha, hrun, hp]
        have hc : (run n s).state.canStep = true := State.canStep_iff.mpr ⟨hrun, Nat.not_le.mp hp⟩
        rw [he]
        exact ⟨hc, (run_count_of_not_aborted ha).resolve_right (by simp [hc])⟩

end Sys2Proof.Machine
end

section
/-! Proofs for 41_load_store.md: LOAD and STORE (R110, R111). -/

namespace Sys2Proof.Machine

/-! ### Words that name a register, and fields that name none -/

/-- R59 by arithmetic: the word of a register and a low byte. -/
theorem packWord_field (op : Opcode) (r : Reg) (low : BitVec 8) :
    packWord op r.field low = BitVec.ofNat 16 (op.bits.toNat * 4096 + r.val * 256 + low.toNat) := by
  rw [← Reg.toNat_field r, ← packWord_toNat, BitVec.ofNat_toNat, BitVec.setWidth_eq]

/-- An instruction whose one register field names a register is well-formed (R57). -/
theorem wellFormed_of_regFields_singleton {i : Instr} {r : Reg} (h : i.regFields = [r.field]) : WellFormed i := by
  intro f hf
  obtain rfl : f = r.field := by simpa [h] using hf
  rw [Reg.toNat_field]
  exact r.isLt

/-- A meaning that begins with its register operand faults before anything else when the field names none (R57). -/
theorem faultsInvalidRegister_of_withReg {i : Instr} {f : RegField} {s : State} {k : Reg → Result}
    (hf : 8 ≤ f.toNat) (h : exec i s = withReg i f s k) : FaultsInvalidRegister i s :=
  ⟨encode i, h.trans (withReg_invalid i hf s k)⟩

/-! ### The frame of a cycle that writes one register -/

theorem regsWritten_setReg (s : State) (d : Reg) (v : Word) :
    RegsWritten s (s.beginCycle.setReg d v).countCycle d v := by
  refine ⟨by simp, fun r hr => ?_⟩
  calc (s.beginCycle.setReg d v).countCycle.reg r
    _ = s.beginCycle.reg r := State.reg_setReg_ne _ v hr
    _ = s.operand r := State.reg_beginCycle s r

/-- A register write leaves memory and output alone, goes on at the following cell and is counted. -/
theorem frame_setReg (s : State) (d : Reg) (v : Word) :
    MemKept s (s.beginCycle.setReg d v).countCycle ∧ OutKept s (s.beginCycle.setReg d v).countCycle ∧
      PcAdvanced s (s.beginCycle.setReg d v).countCycle ∧ Counted s (s.beginCycle.setReg d v).countCycle :=
  ⟨⟨fun _ => rfl, rfl⟩, rfl, rfl, rfl, rfl, rfl⟩

/-! ### LOAD -/

/-- Settles O1: the loaded value is written by `execLoad_of_lt`, with the frame of every register write. -/
theorem loadReadsTheAddressedCell : Obligations.LoadReadsTheAddressedCell := by
  refine ⟨fun d a => ⟨packWord_field .load d a, decode_encode (wellFormed_of_regFields_singleton rfl)⟩,
    fun d a s ha => ?completes, fun f a s hf => faultsInvalidRegister_of_withReg hf rfl,
    fun a s hm => imm_lt_memSize hm a⟩
  case completes =>
    exact ⟨_, execLoad_of_lt d ha, regsWritten_setReg s d _, frame_setReg s d _⟩

/-! ### STORE -/

/-- Settles O2: the stored cell reads back by `Memory.read_write_self`, every other one by
`Memory.read_write_ne`. -/
theorem storeWritesTheAddressedCell : Obligations.StoreWritesTheAddressedCell := by
  refine ⟨fun r a => ⟨packWord_field .store r a, decode_encode (wellFormed_of_regFields_singleton rfl)⟩,
    fun r a s ha => ?completes, fun f a s hf => faultsInvalidRegister_of_withReg hf rfl,
    fun a s hm => imm_lt_memSize hm a⟩
  case completes =>
    have hself (hm : s.mem.wf) : (s.mem.write (immAddress a) (s.operand r)).read (immAddress a) = s.operand r :=
      Memory.read_write_self hm _ _
    have hother (b : Nat) (hb : b ≠ immAddress a) :
        (s.mem.write (immAddress a) (s.operand r)).read b = s.mem.read b :=
      Memory.read_write_ne s.mem _ hb
    have hregs : RegsKept s { s.beginCycle.countCycle with mem := s.mem.write (immAddress a) (s.operand r) } :=
      State.reg_beginCycle s
    exact ⟨_, execStore_of_lt r ha, hself, hother, hregs, rfl, rfl, rfl, rfl, rfl⟩

end Sys2Proof.Machine
end

section
/-! Proofs for 42_arith_logic.md: ADD, SUB, AND, OR, XOR, INC and DEC (R120 to R127). -/

namespace Sys2Proof.Machine

/-! ### The ALU functions as the rules state them -/

theorem aluAdd_eq_sum (a b : Word) : aluAdd a b = BitVec.ofNat 16 ((a.toNat + b.toNat) % 65536) := by
  apply BitVec.eq_of_toNat_eq
  simp [aluAdd, BitVec.toNat_add]

theorem aluSub_eq_difference (a b : Word) :
    aluSub a b = BitVec.ofInt 16 (((a.toNat : Int) - b.toNat) % 65536) := by
  apply BitVec.eq_of_toNat_eq
  have hb : b.toNat < 65536 := b.isLt
  simp only [aluSub, BitVec.toNat_sub, BitVec.toNat_ofInt]
  omega

theorem aluAnd_eq_bitwise (a b : Word) : aluAnd a b = BitVec.ofFnLE fun k : Fin 16 => a[k] && b[k] := by
  ext k hk
  simp [aluAnd]

theorem aluOr_eq_bitwise (a b : Word) : aluOr a b = BitVec.ofFnLE fun k : Fin 16 => a[k] || b[k] := by
  ext k hk
  simp [aluOr]

theorem aluXor_eq_bitwise (a b : Word) : aluXor a b = BitVec.ofFnLE fun k : Fin 16 => a[k] ^^ b[k] := by
  ext k hk
  simp [aluXor]

/-- INC is ADD of the constant one (R125). -/
theorem aluInc_eq_sum (a : Word) : aluInc a = BitVec.ofNat 16 ((a.toNat + 1) % 65536) :=
  aluAdd_eq_sum a 1

/-- DEC is SUB of the constant one (R126). -/
theorem aluDec_eq_difference (a : Word) : aluDec a = BitVec.ofInt 16 (((a.toNat : Int) - 1) % 65536) :=
  aluSub_eq_difference a 1

/-! ### The instructions of the register forms -/

/-- Form `RR` uses regA and regB, has them in its word, and ignores the immediate (R54, R58, R59). -/
theorem instr_of_form_RR {op : Opcode} (h : op.form = .RR) (a b : RegField) (imm imm' : Imm) :
    (op.instr a b imm).regFields = [a, b] ∧ encode (op.instr a b imm) = packWord op a (regBByte b) ∧
      op.instr a b imm = op.instr a b imm' := by
  cases op with
  | add | sub | and | or | xor | mov => exact ⟨rfl, rfl, rfl⟩
  | load | store | li | jmp | jz | jnz | inc | dec | out | hlt => cases h

/-- Form `R` uses regA alone, has a zero low byte, and ignores regB and the immediate (R54, R58, R59). -/
theorem instr_of_form_R {op : Opcode} (h : op.form = .R) (a b b' : RegField) (imm imm' : Imm) :
    (op.instr a b imm).regFields = [a] ∧ encode (op.instr a b imm) = packWord op a 0 ∧
      op.instr a b imm = op.instr a b' imm' := by
  cases op with
  | inc | dec | out => exact ⟨rfl, rfl, rfl⟩
  | load | store | li | jmp | jz | jnz | add | sub | and | or | xor | mov | hlt => cases h

theorem wellFormed_of_regFields_pair {i : Instr} {d r : Reg} (h : i.regFields = [d.field, r.field]) :
    WellFormed i := by
  intro f hf
  rw [h, List.mem_pair] at hf
  rcases hf with rfl | rfl
  · exact d.toNat_field ▸ d.isLt
  · exact r.toNat_field ▸ r.isLt

/-! ### Decoding a word by the arithmetic of its upper bits -/

theorem eq_field_of_toNat {f : RegField} {r : Reg} (h : f.toNat = r.val) : f = r.field :=
  BitVec.eq_of_toNat_eq (h.trans r.toNat_field.symm)

/-- The upper byte of a word gives its opcode and regA (R53). -/
theorem opcode_regA_of_upperByte {w : Word} {op : Opcode} {d : Reg}
    (h : w.toNat / 256 = op.bits.toNat * 16 + d.val) :
    (decodeFields w).opcode = op.bits ∧ (decodeFields w).regA = d.field := by
  obtain ⟨hop, hregA, -, -⟩ := decodeFields_toNat w
  have hcode : op.bits.toNat < 16 := op.bits.isLt
  have hd : d.val < 8 := d.isLt
  exact ⟨BitVec.eq_of_toNat_eq (by omega), eq_field_of_toNat (by omega)⟩

/-- A word of form `RR` is decoded by its upper twelve bits (R54, R58). -/
theorem decode_of_form_RR {op : Opcode} (h : op.form = .RR) {w : Word} {d r : Reg}
    (hw : w.toNat / 16 = op.bits.toNat * 256 + d.val * 16 + r.val) (imm : Imm) :
    decode w = .ok (op.instr d.field r.field imm) := by
  have hr : r.val < 8 := r.isLt
  obtain ⟨-, -, hregB, -⟩ := decodeFields_toNat w
  obtain ⟨hO, hA⟩ := opcode_regA_of_upperByte (w := w) (op := op) (d := d) (by omega)
  have hB : (decodeFields w).regB = r.field := eq_field_of_toNat (by omega)
  obtain ⟨hregs, -, hinstr⟩ := instr_of_form_RR h d.field r.field imm (decodeFields w).imm
  refine decode_eq_ok_iff.mpr ⟨?_, wellFormed_of_regFields_pair hregs⟩
  rw [Fields.instr, hO, hA, hB, Opcode.ofBits_bits, hinstr]

/-- A word of form `R` is decoded by its upper byte (R54, R58). -/
theorem decode_of_form_R {op : Opcode} (h : op.form = .R) {w : Word} {d : Reg}
    (hw : w.toNat / 256 = op.bits.toNat * 16 + d.val) (b : RegField) (imm : Imm) :
    decode w = .ok (op.instr d.field b imm) := by
  obtain ⟨hO, hA⟩ := opcode_regA_of_upperByte hw
  obtain ⟨hregs, -, hinstr⟩ := instr_of_form_R h d.field b (decodeFields w).regB imm (decodeFields w).imm
  refine decode_eq_ok_iff.mpr ⟨?_, wellFormed_of_regFields_singleton hregs⟩
  rw [Fields.instr, hO, hA, Opcode.ofBits_bits, hinstr]

/-! ### The whole effect of the register forms -/

theorem faultsInvalidRegister_of_aluRR {i : Instr} {f : Word → Word → Word} {fa fb : RegField} {s : State}
    (hf : 8 ≤ fa.toNat ∨ 8 ≤ fb.toNat) (h : exec i s = aluRR i f fa fb s) : FaultsInvalidRegister i s :=
  ⟨encode i, h.trans (withRegs_invalid i hf s _)⟩

theorem aluRR_field (i : Instr) (f : Word → Word → Word) (d r : Reg) (s : State) :
    aluRR i f d.field r.field s =
      .next (s.beginCycle.setReg d (f (s.operand d) (s.operand r))).countCycle := by
  simp [aluRR, countedCycle]

theorem aluR_field (i : Instr) (f : Word → Word) (d : Reg) (s : State) :
    aluR i f d.field s = .next (s.beginCycle.setReg d (f (s.operand d))).countCycle := by
  simp [aluR, countedCycle]

/-- An opcode of form `RR` whose meaning is `aluRR` of an ALU function has the whole effect of that function. -/
theorem completesRR_of_aluRR {op : Opcode} {alu result : Word → Word → Word} (hform : op.form = .RR)
    (hexec : ∀ a b s, exec (op.instr a b 0) s = aluRR (op.instr a b 0) alu a b s)
    (hresult : ∀ a b, alu a b = result a b) :
    CompletesRR (fun a b => op.instr a b 0) op.bits.toNat result := by
  refine ⟨fun d r => ⟨?word, fun w hw => decode_of_form_RR hform hw 0⟩, fun d r s => ?completes,
    fun fa fb s hf => faultsInvalidRegister_of_aluRR hf (hexec fa fb s)⟩
  case word =>
    obtain ⟨-, hencode, -⟩ := instr_of_form_RR hform d.field r.field 0 0
    rw [hencode, packWord_field, regBByte_toNat, Reg.toNat_field]
  case completes =>
    rw [← hresult]
    exact ⟨_, (hexec _ _ s).trans (aluRR_field _ alu d r s), regsWritten_setReg s d _, frame_setReg s d _⟩

/-- An opcode of form `R` whose meaning is `aluR` of an ALU function has the whole effect of that function. -/
theorem completesR_of_aluR {op : Opcode} {alu result : Word → Word} (hform : op.form = .R)
    (hexec : ∀ a s, exec (op.instr a 0 0) s = aluR (op.instr a 0 0) alu a s)
    (hresult : ∀ a, alu a = result a) :
    CompletesR (fun a => op.instr a 0 0) op.bits.toNat result := by
  refine ⟨fun d => ⟨?word, fun w hw => decode_of_form_R hform hw 0 0⟩, fun d s => ?completes,
    fun f s hf => faultsInvalidRegister_of_withReg hf (hexec f s)⟩
  case word =>
    obtain ⟨-, hencode, -⟩ := instr_of_form_R hform d.field 0 0 0 0
    rw [hencode, packWord_field]
    simp
  case completes =>
    rw [← hresult]
    exact ⟨_, (hexec _ s).trans (aluR_field _ alu d s), regsWritten_setReg s d _, frame_setReg s d _⟩

/-! ### The seven instructions -/

/-- Settles O3: form `RR` with the sum. -/
theorem addWritesTheSumModulo65536 : Obligations.AddWritesTheSumModulo65536 :=
  completesRR_of_aluRR (op := .add) rfl (fun _ _ _ => rfl) aluAdd_eq_sum

/-- Settles O4: form `RR` with the difference. -/
theorem subWritesTheDifferenceModulo65536 : Obligations.SubWritesTheDifferenceModulo65536 :=
  completesRR_of_aluRR (op := .sub) rfl (fun _ _ _ => rfl) aluSub_eq_difference

/-- Settles O5: form `RR` with the bitwise and. -/
theorem andWritesTheBitwiseAnd : Obligations.AndWritesTheBitwiseAnd :=
  completesRR_of_aluRR (op := .and) rfl (fun _ _ _ => rfl) aluAnd_eq_bitwise

/-- Settles O6: form `RR` with the bitwise or. -/
theorem orWritesTheBitwiseOr : Obligations.OrWritesTheBitwiseOr :=
  completesRR_of_aluRR (op := .or) rfl (fun _ _ _ => rfl) aluOr_eq_bitwise

/-- Settles O7: form `RR` with the bitwise exclusive or. -/
theorem xorWritesTheBitwiseExclusiveOr : Obligations.XorWritesTheBitwiseExclusiveOr :=
  completesRR_of_aluRR (op := .xor) rfl (fun _ _ _ => rfl) aluXor_eq_bitwise

/-- Settles O13: form `R` with the sum of the operand and one. -/
theorem incAddsOneModulo65536 : Obligations.IncAddsOneModulo65536 :=
  completesR_of_aluR (op := .inc) rfl (fun _ _ => rfl) aluInc_eq_sum

/-- Settles O14: form `R` with the difference of the operand and one. -/
theorem decSubtractsOneModulo65536 : Obligations.DecSubtractsOneModulo65536 :=
  completesR_of_aluR (op := .dec) rfl (fun _ _ => rfl) aluDec_eq_difference

end Sys2Proof.Machine
end

section
/-! Proofs for 43_move.md: LI and MOV (R140, R141). -/

namespace Sys2Proof.Machine

/-! ### LI -/

/-- The immediate as data is the number the byte holds, in 16 bits (R140). -/
theorem immData_eq_ofNat (v : Imm) : immData v = BitVec.ofNat 16 v.toNat :=
  (BitVec.ofNat_toNat 16 v).symm

theorem execLi_field (d : Reg) (v : Imm) (s : State) :
    execLi d.field v s = .next (s.beginCycle.setReg d (BitVec.ofNat 16 v.toNat)).countCycle := by
  rw [execLi, withReg_field, countedCycle, immData_eq_ofNat]

/-- Settles O8: the immediate is written by `execLi_field`, with the frame of every register write. -/
theorem liWritesTheZeroExtendedImmediate : Obligations.LiWritesTheZeroExtendedImmediate := by
  refine ⟨fun d v => ⟨packWord_field .li d v, decode_encode (wellFormed_of_regFields_singleton rfl)⟩,
    fun d v s => ?completes, fun f v s hf => faultsInvalidRegister_of_withReg hf rfl⟩
  case completes =>
    exact ⟨_, execLi_field d v s, regsWritten_setReg s d _, frame_setReg s d _⟩

/-! ### MOV -/

/-- Settles O12: form `RR` with its second operand passed on. -/
theorem movCopiesTheSecondRegister : Obligations.MovCopiesTheSecondRegister :=
  completesRR_of_aluRR (op := .mov) (alu := aluPassB) rfl (fun _ _ _ => rfl) (fun _ _ => rfl)

end Sys2Proof.Machine
end


section
/-! Proofs for 44_control.md: JMP, JZ and JNZ (R150 to R152). -/

namespace Sys2Proof.Machine

/-! ### The frame of a cycle that writes only `pc` -/

/-- A write of `pc` leaves registers (but for the forced zero), memory and output alone, and is counted. -/
theorem frame_setPc (s : State) (n : Nat) :
    RegsKept s (s.beginCycle.setPc n).countCycle ∧ MemKept s (s.beginCycle.setPc n).countCycle ∧
      OutKept s (s.beginCycle.setPc n).countCycle ∧ Counted s (s.beginCycle.setPc n).countCycle :=
  ⟨State.reg_beginCycle s, ⟨fun _ => rfl, rfl⟩, rfl, rfl, rfl, rfl⟩

/-! ### JMP -/

theorem execJmp_eq (a : Imm) (s : State) : execJmp a s = .next (s.beginCycle.setPc a.toNat).countCycle := rfl

/-- A word of opcode 8 is JMP of its low byte, whatever its bits 11:8 hold (R54, R58). -/
theorem decode_jmp {w : Word} (h : w.toNat / 4096 = 8) : decode w = .ok (.jmp (BitVec.ofNat 8 (w.toNat % 256))) := by
  obtain ⟨hop, -, -, himm⟩ := decodeFields_toNat w
  have hO : (decodeFields w).opcode = Opcode.jmp.bits := BitVec.eq_of_toNat_eq (hop.trans (congrArg (· % 16) h))
  refine decode_eq_ok_iff.mpr ⟨?_, List.forall_mem_nil _⟩
  rw [Fields.instr, hO, Opcode.ofBits_bits, ← himm, BitVec.ofNat_toNat, BitVec.setWidth_eq]
  rfl

/-- Settles O9: the word is the one of register 0 in the unused field, its decoding is `decode_jmp`, and the cycle
writes only `pc`. -/
theorem jmpWritesTheAbsoluteTarget : Obligations.JmpWritesTheAbsoluteTarget :=
  ⟨fun a => packWord_field .jmp 0 a, fun _ hw => decode_jmp hw,
    fun a s => ⟨_, execJmp_eq a s, rfl, frame_setPc s a.toNat⟩⟩

/-! ### The conditional jumps -/

/-- A conditional jump writes the target or, when it is not taken, the following cell that `pc` already holds. -/
theorem jumpWhen_field (i : Instr) (test : Word → Bool) (r : Reg) (a : Imm) (s : State) :
    jumpWhen i test r.field a s =
      .next (s.beginCycle.setPc (if test (s.operand r) then a.toNat else s.pc + 1)).countCycle := by
  rw [jumpWhen, withReg_field, countedCycle, State.reg_beginCycle]
  split
  · rfl
  · rfl

/-- An instruction of one register and a target whose meaning is `jumpWhen` of a test has the whole effect of a
conditional jump by that test. -/
theorem completesJump_of_jumpWhen {mk : RegField → Imm → Instr} {op : Opcode} {test taken : Word → Bool}
    (hfields : ∀ f a, (mk f a).regFields = [f]) (hencode : ∀ f a, encode (mk f a) = packWord op f a)
    (hexec : ∀ f a s, exec (mk f a) s = jumpWhen (mk f a) test f a s) (htest : ∀ v, test v = taken v) :
    CompletesJump mk op.bits.toNat taken := by
  refine ⟨fun r a => ⟨?word, decode_encode (wellFormed_of_regFields_singleton (hfields _ a))⟩,
    fun r a s => ?completes, fun f a s hf => faultsInvalidRegister_of_withReg hf (hexec f a s)⟩
  case word => rw [hencode, packWord_field]
  case completes =>
    rw [← htest]
    exact ⟨_, (hexec _ a s).trans (jumpWhen_field _ test r a s), rfl, frame_setPc s _⟩

theorem testZero_eq (v : Word) : testZero v = decide (v.toNat = 0) := by
  rw [testZero, beq_eq_decide]
  exact decide_eq_decide.mpr BitVec.toNat_inj.symm

/-- JNZ's condition is JZ's negated (R152). -/
theorem testNonzero_eq (v : Word) : testNonzero v = decide (v.toNat ≠ 0) := by
  calc testNonzero v
    _ = !testZero v := rfl
    _ = decide (v.toNat ≠ 0) := by rw [testZero_eq, decide_not]

/-- Settles O10: the conditional jump by `testZero`. -/
theorem jzJumpsWhenTheRegisterIsZero : Obligations.JzJumpsWhenTheRegisterIsZero :=
  completesJump_of_jumpWhen (op := .jz) (fun _ _ => rfl) (fun _ _ => rfl) (fun _ _ _ => rfl) testZero_eq

/-- Settles O11: the conditional jump by `testNonzero`. -/
theorem jnzJumpsWhenTheRegisterIsNotZero : Obligations.JnzJumpsWhenTheRegisterIsNotZero :=
  completesJump_of_jumpWhen (op := .jnz) (fun _ _ => rfl) (fun _ _ => rfl) (fun _ _ _ => rfl) testNonzero_eq

end Sys2Proof.Machine
end

section
/-! Proofs for 45_system.md: OUT and HLT (R160, R161). -/

namespace Sys2Proof.Machine

/-! ### OUT -/

theorem execOut_field (r : Reg) (s : State) :
    execOut r.field s = .next (s.beginCycle.emit (s.operand r)).countCycle := by
  rw [execOut, withReg_field, countedCycle, State.reg_beginCycle]

/-- An append to the output log leaves registers (but for the forced zero) and memory alone, goes on at the
following cell and is counted. -/
theorem frame_emit (s : State) (v : Word) :
    RegsKept s (s.beginCycle.emit v).countCycle ∧ MemKept s (s.beginCycle.emit v).countCycle ∧
      PcAdvanced s (s.beginCycle.emit v).countCycle ∧ Counted s (s.beginCycle.emit v).countCycle :=
  ⟨State.reg_beginCycle s, ⟨fun _ => rfl, rfl⟩, rfl, rfl, rfl, rfl⟩

/-- Settles O15: a word of form `R` is decoded by its upper byte, and the cycle of `execOut_field` writes only the
output log. -/
theorem outAppendsTheRegisterValue : Obligations.OutAppendsTheRegisterValue := by
  refine ⟨fun r => ⟨packWord_field .out r 0, fun w hw => decode_of_form_R (op := .out) rfl hw 0 0⟩,
    fun r s => ?completes, fun f s hf => faultsInvalidRegister_of_withReg hf rfl⟩
  case completes =>
    exact ⟨_, execOut_field r s, rfl, frame_emit s _⟩

/-! ### HLT -/

/-- A word of opcode 15 is HLT, whatever its bits 11:0 hold (R54, R58). -/
theorem decode_hlt {w : Word} (h : w.toNat / 4096 = 15) : decode w = .ok .hlt := by
  obtain ⟨hop, -, -, -⟩ := decodeFields_toNat w
  have hO : (decodeFields w).opcode = Opcode.hlt.bits := BitVec.eq_of_toNat_eq (hop.trans (congrArg (· % 16) h))
  refine decode_eq_ok_iff.mpr ⟨?_, List.forall_mem_nil _⟩
  rw [Fields.instr, hO, Opcode.ofBits_bits]
  rfl

/-- The halting cycle sets the flag, is not counted, leaves registers (but for the forced zero), memory and output
alone, and ends at the following cell. -/
theorem frame_setHalted (s : State) :
    s.beginCycle.setHalted.halted = true ∧ s.beginCycle.setHalted.cycles = s.cycles ∧
      s.beginCycle.setHalted.memSize = s.memSize ∧ RegsKept s s.beginCycle.setHalted ∧
      MemKept s s.beginCycle.setHalted ∧ OutKept s s.beginCycle.setHalted ∧ PcAdvanced s s.beginCycle.setHalted :=
  ⟨rfl, rfl, rfl, State.reg_beginCycle s, ⟨fun _ => rfl, rfl⟩, rfl, rfl⟩

theorem stepOutcome_of_fetchDecode_hlt {s : State} (h : s.canStep = true) (hi : fetchDecode s = .ok .hlt) :
    stepOutcome s = .halt s.beginCycle.setHalted :=
  stepOutcome_of_exec h hi (exec_hlt s)

/-- Every run of a core that has stopped returns 0 and changes nothing, whatever its budget. -/
theorem run_of_not_canStep {s : State} (h : s.canStep = false) (n : Nat) : run n s = ⟨s, 0, none⟩ := by
  cases n with
  | zero => exact run_zero s
  | succ n => exact run_succ_stop n (stepOutcome_of_not_canStep h)

/-- Settles O16: the halting cycle is `frame_setHalted`; a halted core is stopped by the guard, in a step and in a
run, and `hostReset_halted` ends that. -/
theorem hltHaltsUntilReset : Obligations.HltHaltsUntilReset := by
  refine ⟨packWord_field .hlt 0 0, fun _ hw => decode_hlt hw, fun s => ⟨_, exec_hlt s, frame_setHalted s⟩,
    fun s hc hi => ?halts, fun s hh => ?halted⟩
  case halts => simp [stepReturns, stepOutcome_of_fetchDecode_hlt hc hi]
  case halted =>
    obtain ⟨hstop, -⟩ := guardStopsWithoutChange
    obtain ⟨hstep, -, hret⟩ := hstop s (.inl hh)
    have hc : s.canStep = false := State.canStep_eq_false_iff.mpr (.inl hh)
    exact ⟨hstep, hret, run_of_not_canStep hc, hostReset_halted s⟩

end Sys2Proof.Machine
end

section
/-! Proofs for 70_reset_and_hazards.md: reset and the boot sequence (R190, R192). -/

namespace Sys2Proof.Machine

/-! ### The effect on `pc` and `halted` of what is not a reset -/

theorem aluRR_pcAdvanced {i : Instr} {f : Word → Word → Word} {rd rs : RegField} {s t : State}
    (h : aluRR i f rd rs s = .next t) : PcAdvanced s t := by
  obtain ⟨d, r, -, -, rfl⟩ := aluRR_next h
  rfl

theorem aluR_pcAdvanced {i : Instr} {f : Word → Word} {rd : RegField} {s t : State}
    (h : aluR i f rd s = .next t) : PcAdvanced s t := by
  obtain ⟨d, -, rfl⟩ := aluR_next h
  rfl

/-- An instruction goes on at the following cell unless it is one of the three jumps (R95). -/
theorem exec_pcAdvanced_or_jump {i : Instr} {s t : State} (h : exec i s = .next t) :
    PcAdvanced s t ∨ ∃ (f : RegField) (a : Imm), i = .jmp a ∨ i = .jz f a ∨ i = .jnz f a := by
  cases i with
  | load rd addr => obtain ⟨d, -, -, rfl⟩ := execLoad_next h; exact .inl rfl
  | store rs addr => obtain ⟨r, -, -, rfl⟩ := execStore_next h; exact .inl rfl
  | add _ _ | sub _ _ | and _ _ | or _ _ | xor _ _ | mov _ _ => exact .inl (aluRR_pcAdvanced h)
  | li rd imm => obtain ⟨d, -, rfl⟩ := execLi_next h; exact .inl rfl
  | inc _ | dec _ => exact .inl (aluR_pcAdvanced h)
  | out rs => obtain ⟨r, -, rfl⟩ := execOut_next h; exact .inl rfl
  | hlt => obtain rfl := execHlt_next h; exact .inl rfl
  | jmp addr => exact .inr ⟨0, addr, .inl rfl⟩
  | jz rs addr => exact .inr ⟨rs, addr, .inr (.inl rfl)⟩
  | jnz rs addr => exact .inr ⟨rs, addr, .inr (.inr rfl)⟩

/-- A step that lowers `pc` is the cycle of a jump: a `Stop` keeps it and every other cycle raises it. -/
theorem jump_of_step_pc_lt {s t : State} (h : step s = .next t) (hlt : t.pc < s.pc) :
    ∃ (f : RegField) (a : Imm),
      fetchDecode s = .ok (.jmp a) ∨ fetchDecode s = .ok (.jz f a) ∨ fetchDecode s = .ok (.jnz f a) := by
  rcases step_next h with ⟨-, rfl⟩ | ⟨-, i, hi, hexec⟩
  · exact absurd hlt (Nat.lt_irrefl _)
  · rcases exec_pcAdvanced_or_jump hexec with hpc | ⟨f, a, hjump⟩
    · have hnext : t.pc = s.pc + 1 := hpc
      omega
    · exact ⟨f, a, by simpa [hi] using hjump⟩

/-- A host load that is not refused writes memory alone (R44). -/
theorem loadProgram_ok {words : List Int} {base : Nat} {s t : State} (h : loadProgram words base s = .ok t) :
    t = { s with mem := s.mem.load base words } := by
  rcases Nat.lt_or_ge s.memSize (base + words.length) with hlt | hfit
  · cases (loadProgram_of_lt hlt).symm.trans h
  · cases (loadProgram_of_le hfit).symm.trans h
    rfl

/-- A host write that is not refused writes memory alone (R45). -/
theorem poke_ok {a : Nat} {v : Int} {s t : State} (h : poke a v s = .ok t) :
    t = { s with mem := s.mem.write a (maskWord v) } := by
  by_cases hv : 0 ≤ v ∧ v < 65536
  · rcases Nat.lt_or_ge a s.memSize with ha | ha
    · cases (poke_of_lt ha hv).symm.trans h
      rfl
    · cases (poke_of_address_outside ha hv).symm.trans h
  · cases (poke_of_value_outside a s hv).symm.trans h

/-- Settles O43: the guard stops a halted core in a step and in a run, load and poke write memory alone, and only
a jump's cycle can lower `pc`. -/
theorem onlyResetClearsHalted : Obligations.OnlyResetClearsHalted := by
  refine fun s => ⟨rfl, fun t h hh => ?stepped, fun n hh => ?ran, fun t words base h => ?loaded,
    fun t a v h => ?poked, fun t => jump_of_step_pc_lt⟩
  case stepped =>
    have hstop : step s = .next s := step_of_not_canStep (State.canStep_eq_false_iff.mpr (.inl hh))
    cases hstop.symm.trans h
    exact hh
  case ran => rwa [run_of_not_canStep (State.canStep_eq_false_iff.mpr (.inl hh)) n]
  case loaded => obtain rfl := loadProgram_ok h; exact ⟨rfl, rfl⟩
  case poked => obtain rfl := poke_ok h; exact ⟨rfl, rfl⟩

/-! ### The boot sequence with no data cells -/

/-- A word's number is masked to the word itself. -/
theorem maskWord_ofNat_toNat (w : Word) : maskWord (Int.ofNat w.toNat) = w := by
  rw [maskWord, Int.ofNat_eq_natCast, BitVec.ofInt_natCast, BitVec.ofNat_toNat, BitVec.setWidth_eq]

/-- The core that the boot sequence runs when no data is poked: the words from cell 0 on, then a reset (R192). -/
def State.booted (s : State) (words : List Word) : State :=
  hostReset { s with mem := s.mem.load 0 (words.map fun w => Int.ofNat w.toNat) }

@[simp] theorem State.booted_memSize (s : State) (words : List Word) : (s.booted words).memSize = s.memSize := rfl

@[simp] theorem hostReset_booted (s : State) (words : List Word) : hostReset (s.booted words) = s.booted words := rfl

theorem State.read_booted {s : State} (hm : s.mem.wf) {words : List Word} {k : Nat} {w : Word}
    (h : words[k]? = some w) : (s.booted words).mem.read k = w := by
  have hk : (words.map fun w => Int.ofNat w.toNat)[k]? = some (Int.ofNat w.toNat) := by simp [h]
  calc (s.booted words).mem.read k
    _ = (s.mem.load 0 (words.map fun w => Int.ofNat w.toNat)).read (0 + k) := by rw [Nat.zero_add]; rfl
    _ = maskWord (Int.ofNat w.toNat) := Memory.read_load_inside hm hk
    _ = w := maskWord_ofNat_toNat w

theorem hostRun_natCast (budget : Nat) (s : State) : hostRun budget s = .ok (run budget s) :=
  if_pos (Int.natCast_nonneg budget)

theorem boot_of_diagnostics {source : List Char} (data : List (Nat × Int)) (budget : Int) (s : State)
    (h : (Assembler.assemble source).diagnostics ≠ []) :
    boot source data budget s = .error (.assemblyDiagnostics (Assembler.assemble source).diagnostics.length) :=
  if_neg (by simpa using h)

theorem boot_of_no_diagnostics {source : List Char} (budget : Nat) {s : State}
    (h : (Assembler.assemble source).diagnostics = [])
    (hfit : (Assembler.assemble source).words.length ≤ s.memSize) :
    boot source [] budget s = .ok (run budget (s.booted (Assembler.assemble source).words)) := by
  have hload := loadProgram_of_le (s := s) (base := 0)
    (words := (Assembler.assemble source).words.map fun w => Int.ofNat w.toNat) (by simpa using hfit)
  simp only [boot, h, List.isEmpty_nil, if_true, hload, pokeAll]
  exact hostRun_natCast budget _

/-- Settles O46: a text with diagnostics is refused before anything is loaded; otherwise the core that runs is
`State.booted`. -/
theorem bootRunsTheAssembledWords : Obligations.BootRunsTheAssembledWords :=
  fun source budget s => ⟨fun hd => ⟨_, boot_of_diagnostics [] budget s hd⟩, fun hd hfit hm =>
    ⟨s.booted (Assembler.assemble source).words, boot_of_no_diagnostics budget hd hfit, hostReset_booted s _,
      State.booted_memSize s _, fun _ _ => State.read_booted hm⟩⟩

end Sys2Proof.Machine
end

section
/-! Proofs for 30_encoding.md section 1, the control signals (R61): the frame of every instruction by the signals of
its opcode, and the step as the datapath under them (R26). -/

namespace Sys2Proof.Machine

/-! ### The frame of an executed cycle, by control signals -/

/-- What an executed cycle of `i` from `s` to `t` leaves alone, by the signals of the opcode (R12, R61, R96). -/
structure SignalsFrame (i : Instr) (s t : State) : Prop where
  regs_kept : i.opcode.signals.regWe = false → RegsKept s t
  regs_other : i.opcode.signals.regWe = true →
    ∀ r : Reg, r.field ≠ (canonicalFields i).regA → t.reg r = s.operand r
  mem_kept : i.opcode.signals.memWe = false → MemKept s t
  mem_other : i.opcode.signals.memWe = true →
    ∀ a, a ≠ immAddress (canonicalFields i).imm → t.mem.read a = s.mem.read a
  pc_advanced : i.opcode.signals.pcWe = .never → t.pc = s.pc + 1
  pc_cases : t.pc = s.pc + 1 ∨ t.pc = immTarget (canonicalFields i).imm
  out_kept : i.opcode.signals.outEn = false → OutKept s t
  halted_eq : t.halted = (s.halted || i.opcode.signals.halt)
  cycles_eq : t.cycles = s.cycles + (if i.opcode.signals.halt then 0 else 1)
  memSize_eq : t.memSize = s.memSize

/-- A cycle that writes the register of regA. -/
theorem signalsFrame_setReg {i : Instr} {d : Reg} (hA : (canonicalFields i).regA = d.field)
    (hreg : i.opcode.signals.regWe = true) (hmem : i.opcode.signals.memWe = false)
    (hhalt : i.opcode.signals.halt = false) (s : State) (v : Word) :
    SignalsFrame i s (s.beginCycle.setReg d v).countCycle where
  regs_kept h := by simp [hreg] at h
  regs_other _ r hr := (regsWritten_setReg s d v).2 r fun e => hr (e ▸ hA.symm)
  mem_kept _ := ⟨fun _ => rfl, rfl⟩
  mem_other h := by simp [hmem] at h
  pc_advanced _ := rfl
  pc_cases := .inl rfl
  out_kept _ := rfl
  halted_eq := by simp [hhalt]
  cycles_eq := by simp [hhalt]
  memSize_eq := rfl

/-- A cycle that writes `pc`: the target, or the following cell again. -/
theorem signalsFrame_setPc {i : Instr} {s : State} {n : Nat} (hreg : i.opcode.signals.regWe = false)
    (hmem : i.opcode.signals.memWe = false) (hpc : i.opcode.signals.pcWe ≠ .never)
    (hhalt : i.opcode.signals.halt = false) (hn : n = s.pc + 1 ∨ n = immTarget (canonicalFields i).imm) :
    SignalsFrame i s (s.beginCycle.setPc n).countCycle where
  regs_kept _ := (frame_setPc s n).1
  regs_other h := by simp [hreg] at h
  mem_kept _ := ⟨fun _ => rfl, rfl⟩
  mem_other h := by simp [hmem] at h
  pc_advanced h := absurd h hpc
  pc_cases := hn
  out_kept _ := rfl
  halted_eq := by simp [hhalt]
  cycles_eq := by simp [hhalt]
  memSize_eq := rfl

theorem jumpWhen_signalsFrame {i j : Instr} {test : Word → Bool} {rs : RegField} {addr : Imm} {s t : State}
    (hreg : i.opcode.signals.regWe = false) (hmem : i.opcode.signals.memWe = false)
    (hpc : i.opcode.signals.pcWe ≠ .never) (hhalt : i.opcode.signals.halt = false)
    (himm : (canonicalFields i).imm = addr) (h : jumpWhen j test rs addr s = .next t) : SignalsFrame i s t := by
  obtain ⟨r, rfl, -⟩ := jumpWhen_next h
  cases (jumpWhen_field j test r addr s).symm.trans h
  refine signalsFrame_setPc hreg hmem hpc hhalt ?_
  rw [himm]
  split
  · exact .inr rfl
  · exact .inl rfl

theorem execStore_signalsFrame {rs : RegField} {addr : Imm} {s t : State} (h : execStore rs addr s = .next t) :
    SignalsFrame (.store rs addr) s t := by
  obtain ⟨r, -, -, rfl⟩ := execStore_next h
  exact {
    regs_kept := fun _ => State.reg_beginCycle s
    regs_other := nofun
    mem_kept := nofun
    mem_other := fun _ _ ha => Memory.read_write_ne s.mem _ ha
    pc_advanced := fun _ => rfl
    pc_cases := .inl rfl
    out_kept := fun _ => rfl
    halted_eq := (Bool.or_false _).symm
    cycles_eq := rfl
    memSize_eq := rfl }

theorem execOut_signalsFrame {rs : RegField} {s t : State} (h : execOut rs s = .next t) :
    SignalsFrame (.out rs) s t := by
  obtain ⟨r, -, rfl⟩ := execOut_next h
  exact {
    regs_kept := fun _ => State.reg_beginCycle s
    regs_other := nofun
    mem_kept := fun _ => ⟨fun _ => rfl, rfl⟩
    mem_other := nofun
    pc_advanced := fun _ => rfl
    pc_cases := .inl rfl
    out_kept := nofun
    halted_eq := (Bool.or_false _).symm
    cycles_eq := rfl
    memSize_eq := rfl }

theorem execHlt_signalsFrame {s t : State} (h : execHlt s = .next t) : SignalsFrame .hlt s t := by
  obtain rfl := execHlt_next h
  exact {
    regs_kept := fun _ => State.reg_beginCycle s
    regs_other := nofun
    mem_kept := fun _ => ⟨fun _ => rfl, rfl⟩
    mem_other := nofun
    pc_advanced := fun _ => rfl
    pc_cases := .inl rfl
    out_kept := fun _ => rfl
    halted_eq := (Bool.or_true _).symm
    cycles_eq := rfl
    memSize_eq := rfl }

/-- Every executed cycle has the frame of its signals: it writes one register, one cell, `pc` or the log, or halts. -/
theorem exec_signalsFrame {i : Instr} {s t : State} (h : exec i s = .next t) : SignalsFrame i s t := by
  cases i with
  | load rd addr => obtain ⟨d, rfl, -, rfl⟩ := execLoad_next h; exact signalsFrame_setReg rfl rfl rfl rfl s _
  | add _ _ | sub _ _ | and _ _ | or _ _ | xor _ _ | mov _ _ =>
    obtain ⟨d, r, rfl, rfl, rfl⟩ := aluRR_next h
    exact signalsFrame_setReg rfl rfl rfl rfl s _
  | li rd imm => obtain ⟨d, rfl, rfl⟩ := execLi_next h; exact signalsFrame_setReg rfl rfl rfl rfl s _
  | inc _ | dec _ => obtain ⟨d, rfl, rfl⟩ := aluR_next h; exact signalsFrame_setReg rfl rfl rfl rfl s _
  | jmp addr => obtain rfl := execJmp_next h; exact signalsFrame_setPc rfl rfl nofun rfl (.inr rfl)
  | jz _ _ | jnz _ _ => exact jumpWhen_signalsFrame rfl rfl nofun rfl rfl h
  | store rs addr => exact execStore_signalsFrame h
  | out rs => exact execOut_signalsFrame h
  | hlt => exact execHlt_signalsFrame h

/-- Settles O33: the obligation's clauses are the fields of `SignalsFrame`. -/
theorem signalsFrameEveryInstruction : Obligations.SignalsFrameEveryInstruction := fun _ _ _ h =>
  have frame := exec_signalsFrame h
  ⟨frame.regs_kept, frame.regs_other, frame.mem_kept, frame.mem_other, frame.pc_advanced, frame.pc_cases,
    frame.out_kept, frame.halted_eq, frame.cycles_eq, frame.memSize_eq⟩

/-! ### The datapath under the control signals -/

/-- Steps 3 to 6 of the datapath under given signals: `datapathCycle` past the fault test. -/
def signalCycle (c : Signals) (f : Fields) (s : State) : Result :=
  match memoryData c f.imm s.beginCycle with
  | none => raiseOutsideMemory (immAddress f.imm)
  | some m =>
    match storeBack c f.imm (s.beginCycle.regOutput c.useA f.regA)
        (writeBack c f.regA (aluResult c.alu (s.beginCycle.regOutput c.useA f.regA)
          (s.beginCycle.regOutput c.useB f.regB) f.imm m) s.beginCycle) with
    | none => raiseOutsideMemory (immAddress f.imm)
    | some t => .next (sequencerPart c f.imm (s.beginCycle.regOutput c.useA f.regA) t)

theorem datapathCycle_eq (w : Word) (s : State) :
    datapathCycle w s =
      if signalFault (decodeFields w) then raiseInvalidRegister s.pc w
      else signalCycle (Opcode.ofBits (decodeFields w).opcode).signals (decodeFields w) s := rfl

/-- The signals `use_a` and `use_b` say the same of a word as its form: the two fault tests are one (R57, R61). -/
theorem signalFault_eq_regFault (f : Fields) : signalFault f = regFault f := by
  unfold signalFault regFault
  cases Opcode.ofBits f.opcode <;> simp [Opcode.signals, Opcode.form]

theorem State.regOutput_field (s : State) (r : Reg) : s.regOutput true r.field = s.reg r := by
  simp [State.regOutput]

theorem writeBack_field {c : Signals} (h : c.regWe = true) (d : Reg) (v : Word) (s : State) :
    writeBack c d.field v s = s.setReg d v := by
  simp [writeBack, h]

theorem writeBack_disabled {c : Signals} (h : c.regWe = false) (f : RegField) (v : Word) (s : State) :
    writeBack c f v s = s := by
  simp [writeBack, h]

/-- Step 6 with `pc`, output and `halt` signals off only counts the cycle. -/
theorem sequencerPart_plain {c : Signals} (hpc : c.pcWe = .never) (hout : c.outEn = false) (hhalt : c.halt = false)
    (imm : Imm) (a : Word) (s : State) : sequencerPart c imm a s = s.countCycle := by
  simp [sequencerPart, pcOverwritten, hpc, hout, hhalt]

/-- A cycle without memory access: the register write of the ALU result, then the sequencer's part. -/
theorem signalCycle_of_no_memory {c : Signals} (hrd : c.memRd = false) (hwe : c.memWe = false) (f : Fields)
    (s : State) :
    signalCycle c f s =
      .next (sequencerPart c f.imm (s.beginCycle.regOutput c.useA f.regA)
        (writeBack c f.regA (aluResult c.alu (s.beginCycle.regOutput c.useA f.regA)
          (s.beginCycle.regOutput c.useB f.regB) f.imm 0) s.beginCycle)) := by
  simp [signalCycle, memoryData, storeBack, hrd, hwe]

theorem exists_regA_of_useA {op : Opcode} {a b : RegField} {imm : Imm} (h : op.signals.useA = true)
    (hw : WellFormed (op.instr a b imm)) : ∃ d : Reg, a = d.field := by
  refine Reg.exists_field_of_lt (hw a ?_)
  cases op with
  | jmp | hlt => cases h
  | _ => exact List.mem_cons_self

theorem exists_regB_of_useB {op : Opcode} {a b : RegField} {imm : Imm} (h : op.signals.useB = true)
    (hw : WellFormed (op.instr a b imm)) : ∃ r : Reg, b = r.field := by
  refine Reg.exists_field_of_lt (hw b ?_)
  cases op with
  | add | sub | and | or | xor | mov => exact List.mem_cons_of_mem _ List.mem_cons_self
  | _ => cases h

/-- On a well-formed instruction the signals of its opcode make the datapath do what its meaning does. -/
theorem exec_eq_signalCycle {op : Opcode} {f : Fields} (hw : WellFormed (op.instr f.regA f.regB f.imm)) (s : State) :
    exec (op.instr f.regA f.regB f.imm) s = signalCycle op.signals f s := by
  obtain ⟨o, a, b, imm⟩ := f
  cases op with
  | load =>
    obtain ⟨d, rfl⟩ := exists_regA_of_useA rfl hw
    refine (withReg_field _ d s _).trans ?_
    simp only [signalCycle, memoryData, storeBack, Opcode.signals, writeBack_field, if_true]
    cases s.beginCycle.readCell (immAddress imm) with
    | none => rfl
    | some v => rfl
  | store =>
    obtain ⟨r, rfl⟩ := exists_regA_of_useA rfl hw
    refine (withReg_field _ r s _).trans ?_
    simp only [signalCycle, memoryData, storeBack, Opcode.signals, writeBack_disabled, State.regOutput_field, if_true]
    cases s.beginCycle.writeCell (immAddress imm) (s.beginCycle.reg r) with
    | none => rfl
    | some u => rfl
  | add | sub | and | or | xor | mov =>
    obtain ⟨d, rfl⟩ := exists_regA_of_useA rfl hw
    obtain ⟨r, rfl⟩ := exists_regB_of_useB rfl hw
    rw [signalCycle_of_no_memory rfl rfl, writeBack_field rfl, sequencerPart_plain rfl rfl rfl]
    simp only [Opcode.signals, State.regOutput_field, State.reg_beginCycle]
    exact aluRR_field _ _ d r s
  | inc | dec =>
    obtain ⟨d, rfl⟩ := exists_regA_of_useA rfl hw
    rw [signalCycle_of_no_memory rfl rfl, writeBack_field rfl, sequencerPart_plain rfl rfl rfl]
    simp only [Opcode.signals, State.regOutput_field, State.reg_beginCycle]
    exact aluR_field _ _ d s
  | li =>
    obtain ⟨d, rfl⟩ := exists_regA_of_useA rfl hw
    rw [signalCycle_of_no_memory rfl rfl, writeBack_field rfl, sequencerPart_plain rfl rfl rfl]
    exact withReg_field _ d s _
  | jz | jnz | out =>
    obtain ⟨r, rfl⟩ := exists_regA_of_useA rfl hw
    rw [signalCycle_of_no_memory rfl rfl, writeBack_disabled rfl]
    simp only [Opcode.signals, State.regOutput_field]
    exact withReg_field _ r s _
  | jmp | hlt =>
    rw [signalCycle_of_no_memory rfl rfl, writeBack_disabled rfl]
    rfl

/-- Settles O32: the two fault tests are one, and past it the cycle is `exec_eq_signalCycle`. -/
theorem stepAgreesWithTheDatapath : Obligations.StepAgreesWithTheDatapath := by
  intro s w hc hw
  rw [datapathCycle_eq, signalFault_eq_regFault]
  rcases fetchDecode_cases s with ⟨hle, -⟩ | ⟨v, hv, hf, hfault⟩ | ⟨v, hv, hf, hok⟩
  · exact absurd hle (Nat.not_le.mpr (State.canStep_iff.mp hc).2)
  · obtain rfl : v = w := Option.some.inj (hv.symm.trans hw)
    rw [if_pos hf]
    exact step_of_fetchFault hc hfault
  · obtain rfl : v = w := Option.some.inj (hv.symm.trans hw)
    rw [if_neg (by simp [hf])]
    exact (step_of_fetchDecode hc hok).trans (exec_eq_signalCycle ((regFault_eq_false_iff _).mp hf) s)

end Sys2Proof.Machine
end

section
/-! Proofs for 10_state.md and 20_memory.md: the state invariant of a step and of every reachable state (R23), the
faults that it leaves (R43, R57), and what a step reaches in memory (R32, R41, R204). -/

namespace Sys2Proof.Machine

/-! ### Memory in canonical form inside its bounds -/

/-- The memory part of the invariant: canonical, and no cell listed at or beyond `n`. -/
def Memory.Sound (n : Nat) (m : Memory) : Prop := m.wf ∧ ∀ c ∈ m, c.1 < n

theorem State.inv_iff {s : State} :
    s.Inv ↔ Config.minMemSize ≤ s.memSize ∧ s.mem.Sound s.memSize ∧ s.pc ≤ s.memSize ∧
      (s.halted = true → s.reg 0 = 0 ∧ 1 ≤ s.pc) := by
  simp only [State.Inv, Memory.Sound, and_assoc]

theorem Memory.Sound.write {n a : Nat} {m : Memory} (h : m.Sound n) (ha : a < n) (v : Word) :
    (m.write a v).Sound n :=
  ⟨Memory.wf_write h.1 a v, Memory.bounded_write h.2 ha v⟩

theorem Memory.Sound.load {n base : Nat} {m : Memory} {words : List Int} (h : m.Sound n)
    (hfit : base + words.length ≤ n) : (m.load base words).Sound n :=
  ⟨Memory.wf_load h.1 base words, Memory.bounded_load h.2 hfit⟩

theorem Memory.sound_ofFn (n : Nat) (f : Nat → Word) : (Memory.ofFn n f).Sound n :=
  ⟨Memory.wf_ofFn n f, fun _ hc => (Memory.mem_ofFn.mp hc).1⟩

/-! ### What one executed cycle keeps -/

/-- STORE is the one instruction that writes memory (R61). -/
theorem store_of_memWe {i : Instr} (h : i.opcode.signals.memWe = true) : ∃ rs addr, i = .store rs addr := by
  cases i with
  | store rs addr => exact ⟨rs, addr, rfl⟩
  | _ => cases h

theorem exec_keeps_sound {i : Instr} {s t : State} (h : exec i s = .next t) (hm : s.mem.Sound s.memSize) :
    t.mem.Sound t.memSize := by
  have frame := exec_signalsFrame h
  rw [frame.memSize_eq]
  cases hwe : i.opcode.signals.memWe with
  | false =>
    obtain ⟨-, hmem⟩ := frame.mem_kept hwe
    rwa [hmem]
  | true =>
    obtain ⟨rs, addr, rfl⟩ := store_of_memWe hwe
    obtain ⟨r, -, haddr, rfl⟩ := execStore_next h
    exact hm.write haddr _

/-- A cycle goes on at the following cell or at one of the first 256 (R32, R95). -/
theorem exec_pc_cases {i : Instr} {s t : State} (h : exec i s = .next t) : t.pc = s.pc + 1 ∨ t.pc < 256 :=
  (exec_signalsFrame h).pc_cases.imp_right (lt_of_eq_of_lt · (canonicalFields i).imm.isLt)

/-- An instruction that halts writes no register and goes on at the following cell (R61). -/
theorem signals_of_halt {op : Opcode} (h : op.signals.halt = true) :
    op.signals.regWe = false ∧ op.signals.pcWe = .never := by
  cases op with
  | hlt => exact ⟨rfl, rfl⟩
  | _ => cases h

/-- A cycle that halts a running core leaves register 0 zero and `pc` past the instruction (R161). -/
theorem exec_halted {i : Instr} {s t : State} (hrun : s.halted = false) (h : exec i s = .next t)
    (ht : t.halted = true) : t.reg 0 = 0 ∧ 1 ≤ t.pc := by
  have frame := exec_signalsFrame h
  have hhalt : i.opcode.signals.halt = true := by simpa [hrun, ht] using frame.halted_eq.symm
  obtain ⟨hreg, hpc⟩ := signals_of_halt hhalt
  have hzero : t.reg 0 = 0 := (frame.regs_kept hreg 0).trans (State.operand_zero s)
  have hnext : t.pc = s.pc + 1 := frame.pc_advanced hpc
  exact ⟨hzero, by omega⟩

/-- R23 for one cycle: a core that executes keeps the invariant. -/
theorem exec_keeps_inv {i : Instr} {s t : State} (hs : s.Inv) (hc : s.canStep = true) (h : exec i s = .next t) :
    t.Inv := by
  obtain ⟨hmin, hmem, -, -⟩ := State.inv_iff.mp hs
  obtain ⟨hrun, hpc⟩ := State.canStep_iff.mp hc
  have hsize : t.memSize = s.memSize := (exec_signalsFrame h).memSize_eq
  have hmin' : 256 ≤ s.memSize := hmin
  have hpc' : t.pc ≤ t.memSize := by rcases exec_pc_cases h with hnext | hlow <;> omega
  exact State.inv_iff.mpr ⟨hsize ▸ hmin, exec_keeps_sound h hmem, hpc', exec_halted hrun h⟩

/-- Settles O29: a `Stop` changes nothing, and an executed cycle keeps the invariant by `exec_keeps_inv`. -/
theorem stepKeepsTheInvariant : Obligations.StepKeepsTheInvariant := by
  intro s t hs h
  rcases step_next h with ⟨-, rfl⟩ | ⟨hc, i, -, hexec⟩
  · exact hs
  · exact exec_keeps_inv hs hc hexec

/-! ### The faults of a sound state -/

/-- With at least 256 cells the one fault of a step is the register field of the fetched word (R43, R57). -/
theorem step_fault {s : State} {r : Fault} (hm : 256 ≤ s.memSize) (h : step s = .fault r) :
    ∃ w, s.fetchWord = some w ∧ regFault (decodeFields w) = true ∧ r = .invalidRegister s.pc w := by
  cases hc : s.canStep with
  | false => cases (step_of_not_canStep hc).symm.trans h
  | true =>
    have ho : stepOutcome s = .fault r := by simp [stepOutcome, hc, h]
    rcases stepOutcome_cases hm with ⟨-, hn⟩ | ⟨w, hw, hf, hn⟩ | ⟨-, hn⟩ | ⟨_, _, -, -, -, -, hn⟩
    · cases hn.symm.trans ho
    · cases hn.symm.trans ho
      exact ⟨w, hw, hf, rfl⟩
    · cases hn.symm.trans ho
    · cases hn.symm.trans ho

/-- Settles O28: a next state by O29, a fault by `step_fault`, and no step refuses. -/
theorem onlyInvalidRegisterFaults : Obligations.OnlyInvalidRegisterFaults := by
  intro s hs
  cases h : step s with
  | next t => exact stepKeepsTheInvariant s t hs h
  | fault r =>
    obtain ⟨hmin, -⟩ := hs
    obtain ⟨w, hw, hf, rfl⟩ := step_fault hmin h
    obtain ⟨-, hread⟩ := State.readCell_eq_some.mp hw
    exact ⟨rfl, hread, hf⟩
  | refused q => exact step_ne_refused s q h

/-! ### Reset and the reachable states -/

/-- A core as construction or reset leaves it has the invariant, whatever its sound memory holds. -/
theorem inv_hostReset {s : State} (hmin : Config.minMemSize ≤ s.memSize) (hmem : s.mem.Sound s.memSize) :
    (hostReset s).Inv :=
  State.inv_iff.mpr ⟨hmin, hmem, Nat.zero_le _, nofun⟩

/-- Settles O30: the reset state is a reset core with no cell listed. -/
theorem resetHasTheInvariant : Obligations.ResetHasTheInvariant :=
  ⟨inv_hostReset (s := State.reset) (by decide) ⟨Memory.wf_nil, nofun⟩, State.reg_of_regs_zero rfl,
    rfl, rfl, rfl, rfl, rfl⟩

/-- One more step in front of a run, with the step itself: it returned true and the run goes on from there, or the
run ends, whatever the rest of its budget, in the state that halted or in the state it began in. -/
theorem run_succ_step_cases (s : State) :
    (∃ t, s.canStep = true ∧ step s = .next t ∧ t.halted = false ∧ ∀ n, run (n + 1) s = (run n t).addStep) ∨
    (∃ t, s.canStep = true ∧ step s = .next t ∧ t.halted = true ∧ ∀ n, run (n + 1) s = ⟨t, 0, none⟩) ∨
    (∃ a, ∀ n, run (n + 1) s = ⟨s, 0, a⟩) := by
  cases ho : stepOutcome s with
  | next t =>
    obtain ⟨hc, hs, ht⟩ := stepOutcome_next ho
    exact .inl ⟨t, hc, hs, ht, fun n => run_succ_next n ho⟩
  | halt t =>
    obtain ⟨hc, hs, ht⟩ := stepOutcome_halt ho
    exact .inr (.inl ⟨t, hc, hs, ht, fun n => run_succ_halt n ho⟩)
  | stop t =>
    obtain ⟨-, rfl⟩ := stepOutcome_stop ho
    exact .inr (.inr ⟨none, fun n => run_succ_stop n ho⟩)
  | fault r => exact .inr (.inr ⟨some (.fault r), fun n => run_succ_fault n ho⟩)
  | refused q => exact .inr (.inr ⟨some (.refused q), fun n => by simp [run, ho]⟩)

/-- What every step keeps, every run keeps (R101). -/
theorem run_keeps {P : State → Prop} (hstep : ∀ s t, P s → step s = .next t → P t) (n : Nat) {s : State}
    (hs : P s) : P (run n s).state := by
  induction n generalizing s with
  | zero => exact hs
  | succ n ih =>
    rcases run_succ_step_cases s with ⟨t, -, ht, -, hrun⟩ | ⟨t, -, ht, -, hrun⟩ | ⟨a, hrun⟩
    · rw [hrun]; exact ih (hstep s t hs ht)
    · rw [hrun]; exact hstep s t hs ht
    · rwa [hrun]

theorem construct_ok {n : Nat} {f : Nat → Word} {s : State} (h : construct n f = .ok s) :
    256 ≤ n ∧ s = { State.reset with memSize := n, mem := Memory.ofFn n f } := by
  unfold construct at h
  split at h
  · next hn => cases h; exact ⟨hn, rfl⟩
  · cases h

theorem loadProgram_fits {words : List Int} {base : Nat} {s t : State} (h : loadProgram words base s = .ok t) :
    base + words.length ≤ s.memSize :=
  Nat.le_of_not_lt fun hlt => by cases (loadProgram_of_lt hlt).symm.trans h

theorem poke_address_lt {a : Nat} {v : Int} {s t : State} (h : poke a v s = .ok t) : a < s.memSize := by
  refine Nat.lt_of_not_le fun hle => ?_
  obtain ⟨r, hr⟩ := poke_refused (v := v) (.inl hle)
  cases hr.symm.trans h

/-- A host's write to memory alone keeps the invariant if it keeps the memory sound. -/
theorem State.Inv.with_mem {s : State} (hs : s.Inv) {m : Memory} (hm : m.Sound s.memSize) :
    ({ s with mem := m } : State).Inv := by
  obtain ⟨hmin, -, hpc, hhalted⟩ := State.inv_iff.mp hs
  exact State.inv_iff.mpr ⟨hmin, hm, hpc, hhalted⟩

/-- R23: the invariant holds in every reachable state. -/
theorem inv_of_reachable {s : State} (h : Reachable s) : s.Inv := by
  induction h with
  | constructed h =>
    obtain ⟨hn, rfl⟩ := construct_ok h
    exact inv_hostReset (s := { State.reset with memSize := _, mem := Memory.ofFn _ _ }) hn (Memory.sound_ofFn _ _)
  | loaded _ h hs =>
    obtain ⟨-, hmem, -⟩ := State.inv_iff.mp hs
    obtain rfl := loadProgram_ok h
    exact hs.with_mem (hmem.load (loadProgram_fits h))
  | poked _ h hs =>
    obtain ⟨-, hmem, -⟩ := State.inv_iff.mp hs
    obtain rfl := poke_ok h
    exact hs.with_mem (hmem.write (poke_address_lt h) _)
  | stepped _ h hs => exact stepKeepsTheInvariant _ _ hs h
  | ran _ hs => exact run_keeps stepKeepsTheInvariant _ hs
  | reset _ hs =>
    obtain ⟨hmin, hmem, -⟩ := State.inv_iff.mp hs
    exact inv_hostReset hmin hmem

/-- R11: a core built with `LI R0, 1` in every cell holds 1 in register 0 after its first step. -/
theorem exists_reachable_reg_zero_ne_zero : ∃ s, Reachable s ∧ s.reg 0 ≠ 0 := by
  obtain ⟨hbuilds, -⟩ := constructionAndResetValues
  obtain ⟨s, hs, -, hpc, hrun, -, -, hsize, hread⟩ :=
    hbuilds 256 (fun _ => encode (.li 0 1)) (Nat.le_refl 256)
  have hc : s.canStep = true := State.canStep_iff.mpr ⟨hrun, by omega⟩
  have hfetch : s.fetchWord = some (encode (.li 0 1)) :=
    State.readCell_eq_some.mpr ⟨by omega, hread s.pc (by omega)⟩
  have hdecode : decode (encode (.li 0 1)) = .ok (.li 0 1) := by decide
  obtain ⟨t, ht, hreg⟩ := execLi_writes 0 1 s
  have hstep : step s = .next t := (step_of_fetchWord hc hfetch hdecode).trans ht
  exact ⟨t, .stepped (.constructed hs) hstep, by rw [hreg]; decide⟩

/-- Settles O31: registers and cells are bounded by their width, the rest is the invariant of every reachable state;
`LI R0, 1` is the witness. -/
theorem reachableStatesAreSound : Obligations.ReachableStatesAreSound := by
  refine ⟨fun s hs => ?_, exists_reachable_reg_zero_ne_zero⟩
  obtain ⟨-, -, hpc, hhalted⟩ := State.inv_iff.mp (inv_of_reachable hs)
  have hword (v : Word) : v.toNat ≤ 65535 := Nat.le_of_lt_succ v.isLt
  exact ⟨fun r => hword _, fun a => hword _, Nat.zero_le _, hpc, s.halted.eq_false_or_eq_true.symm,
    Nat.zero_le _, hhalted⟩

/-! ### What a step reaches -/

theorem exec_read_above {i : Instr} {s t : State} (h : exec i s = .next t) {a : Nat} (ha : 256 ≤ a) :
    t.mem.read a = s.mem.read a := by
  have frame := exec_signalsFrame h
  cases hwe : i.opcode.signals.memWe with
  | false => exact (frame.mem_kept hwe).1 a
  | true => exact frame.mem_other hwe a (Nat.ne_of_gt (Nat.lt_of_lt_of_le (canonicalFields i).imm.isLt ha))

/-- Settles O36: a `Stop` leaves everything, and an 8-bit immediate reaches no cell above 255. -/
theorem instructionsReachTheFirst256Cells : Obligations.InstructionsReachTheFirst256Cells := by
  intro s t h
  rcases step_next h with ⟨-, rfl⟩ | ⟨-, i, -, hexec⟩
  · exact ⟨fun _ _ => rfl, .inr (.inr rfl)⟩
  · exact ⟨fun a ha => exec_read_above hexec ha, (exec_pc_cases hexec).imp_right .inl⟩

/-- Settles O37: the cycle is `execStore_of_lt`, and the stored cell reads back wherever the next fetch looks. -/
theorem storeIsSeenByTheNextFetch : Obligations.StoreIsSeenByTheNextFetch := by
  intro s r a hs hc hi
  obtain ⟨hmin, hwf, -⟩ := hs
  obtain ⟨hrun, -⟩ := State.canStep_iff.mp hc
  have haddr : a.toNat < s.memSize := imm_lt_memSize hmin a
  have hstored : (s.mem.write a.toNat (s.operand r)).read a.toNat = s.operand r := Memory.read_write_self hwf _ _
  refine ⟨_, (step_of_fetchDecode hc hi).trans (execStore_of_lt r haddr), rfl, fun hnext => ?next, fun hown => ?own⟩
  case next =>
    rw [hnext] at haddr hstored ⊢
    exact ⟨State.readCell_eq_some.mpr ⟨haddr, hstored⟩, State.canStep_iff.mpr ⟨hrun, haddr⟩⟩
  case own =>
    rw [hown] at hstored ⊢
    exact hstored

/-- Settles O17: LOAD and STORE reach the memory primitive with the address that it refuses. -/
theorem accessOutsideMemoryFaults : Obligations.AccessOutsideMemoryFaults :=
  fun r _ _ h => ⟨execLoad_of_le r h, execStore_of_le r h⟩

end Sys2Proof.Machine
end

section
/-! Proofs for 40_step_cycle.md, the run loop: the cycle counter (R98, R101) and the repeated run (R103). -/

namespace Sys2Proof.Machine

/-! ### Cycles of a run -/

/-- A core that executes counts its cycle unless the cycle halts it (R97). -/
theorem step_cycles {s t : State} (hc : s.canStep = true) (h : step s = .next t) :
    t.cycles = s.cycles + (if t.halted then 0 else 1) := by
  rcases step_next h with ⟨hstop, -⟩ | ⟨-, i, -, hexec⟩
  · simp [hc] at hstop
  · have frame := exec_signalsFrame hexec
    obtain ⟨hrun, -⟩ := State.canStep_iff.mp hc
    have hhalted : t.halted = i.opcode.signals.halt := by simpa [hrun] using frame.halted_eq
    rw [hhalted]
    exact frame.cycles_eq

theorem run_cycles (n : Nat) (s : State) : (run n s).state.cycles = s.cycles + (run n s).count := by
  induction n generalizing s with
  | zero => rfl
  | succ n ih =>
    rcases run_succ_step_cases s with ⟨t, hc, hs, ht, hrun⟩ | ⟨t, hc, hs, ht, hrun⟩ | ⟨a, hrun⟩
    · have hcycles : t.cycles = s.cycles + 1 := by simpa [ht] using step_cycles hc hs
      rw [hrun, RunResult.addStep_state, RunResult.addStep_count, ih, hcycles]
      omega
    · rw [hrun]
      simpa [ht] using step_cycles hc hs
    · rw [hrun]
      rfl

theorem run_count_le (n : Nat) (s : State) : (run n s).count ≤ n := by
  induction n generalizing s with
  | zero => exact Nat.le_refl 0
  | succ n ih =>
    rcases run_succ_cases s with ⟨t, hrun⟩ | ⟨t, -, hrun⟩ | ⟨r, -, hrun⟩
    · rw [hrun]; exact Nat.succ_le_succ (ih t)
    · rw [hrun]; exact Nat.zero_le _
    · rw [hrun]; exact Nat.zero_le _

/-- Settles O38, by the two inductions over the budget. -/
theorem cyclesCountTheStepsOfARun : Obligations.CyclesCountTheStepsOfARun :=
  fun n s => ⟨run_cycles n s, run_count_le n s⟩

/-! ### A run repeated after reset -/

theorem step_memSize {s t : State} (h : step s = .next t) : t.memSize = s.memSize := by
  rcases step_next h with ⟨-, rfl⟩ | ⟨-, i, -, hexec⟩
  · rfl
  · exact (exec_signalsFrame hexec).memSize_eq

theorem run_memSize (n : Nat) (s : State) : (run n s).state.memSize = s.memSize :=
  run_keeps (P := fun u => u.memSize = s.memSize) (fun _ _ hs h => (step_memSize h).trans hs) n rfl

/-- Reset forgets all but memory and its size (R190). -/
theorem hostReset_congr {s t : State} (hmem : t.mem = s.mem) (hsize : t.memSize = s.memSize) :
    hostReset t = hostReset s := by
  simp [hostReset, hmem, hsize]

/-- Settles O41: the run kept memory and its size, so the second reset gives the state the first run began in. -/
theorem resetAndRerunReproducesTheRun : Obligations.ResetAndRerunReproducesTheRun := fun n s hmem =>
  congrArg (run n) (hostReset_congr hmem (run_memSize n (hostReset s)))

end Sys2Proof.Machine
end
